-- ==== Sys2Proof/Word.lean ====
section
/-!
DEFINITION. The words of IRPM (00_scope.md R5): the widths the rules give, each under the name they use.
-/

namespace Sys2Proof

/-- A sample, a duration or an operand: 16 bits, unsigned, in microseconds (R5 SAMPLE_W, R23, R27). -/
abbrev Sample := BitVec 16

/-- The bus data path, 32 bits (R5 BUS_DW). -/
abbrev BusData := BitVec 32

/-- A bus word address, 9 bits (R5 BUS_AW, R40). -/
abbrev BusAddr := BitVec 9

/-- A bus operation `T`, the one format: `{we, addr[8:0], wdata[31:0]}` (30_encoding.md R61). -/
abbrev BusWord := BitVec 42

end Sys2Proof
end

