-- ==== Sys2Proof/Syntax.lean ====
section
/-!
DEFINITION. The operations of IRPM, one constructor per row of spec/opcode_table.json (30_encoding.md R70), and the
names of what a bus address can reach (20_memory.md R41).
-/

namespace Sys2Proof

/-- A bus operation, decoded. Ignored bits (R69) are not kept: `wdata` of a RD, `wdata[31:8]` of a command. -/
inductive Instr where
  /-- RD `addr` (40_state_ops.md R80). -/
  | rd (addr : BusAddr)
  /-- The RESET command, code 0x01 (40_state_ops.md R83). -/
  | reset
  /-- The MATCH command, code 0x02 (41_tolerance_matcher.md R94). -/
  | matchDuration
  /-- The DECODE_GENERIC command, code 0x03 (42_decode_generic.md R100). -/
  | decodeGeneric
  /-- The NEXT_LEVEL command, code 0x04 (43_phase_cursor.md R120). -/
  | nextLevel
  /-- A WR to CMD whose code names no command (30_encoding.md R68). -/
  | cmdIllegal (code : BitVec 8)
  /-- WR `addr`, `wdata`, with `addr` not that of CMD (40_state_ops.md R81). -/
  | wr (addr : BusAddr) (wdata : BusData)
  deriving DecidableEq, Repr

/-- The registers of 10_state.md R10, in its order. -/
inductive Reg where
  | cmd
  | status
  | ret
  | errval
  | protocolNum
  | value
  | address
  | bits
  | offset
  | used
  | ignoreHeader
  | len
  /-- P0 to P5. -/
  | operand (i : Fin 6)
  | config
  deriving DecidableEq, Repr

/-- What a bus address names: a register, sample S[i], or nothing (20_memory.md R41, R44). -/
inductive Target where
  | reg (r : Reg)
  | sample (i : Nat)
  | unmapped
  deriving DecidableEq, Repr

end Sys2Proof
end

