-- ==== Sys2Proof/WellFormed.lean ====
section
/-!
DEFINITION. Which terms of `Instr` are bus operations: the two side conditions of 30_encoding.md R70.
-/

namespace Sys2Proof

/-- The side conditions of R70: the code of CMD_ILLEGAL is "not 1 to 4", the address of WR is "not 0". -/
def Instr.wellFormed : Instr → Bool
  | .rd _ => true
  | .reset => true
  | .matchDuration => true
  | .decodeGeneric => true
  | .nextLevel => true
  | .cmdIllegal c => decide (c.toNat = 0 ∨ 5 ≤ c.toNat)
  | .wr a _ => decide (a ≠ 0)

end Sys2Proof
end

