-- ==== Sys2Proof/Decode.lean ====
section
/-!
DEFINITION. From a bus operation's bits to an `Instr` (30_encoding.md R61, R63, R64), the encoder from the same tables,
and the opcode table R70 itself, row by row.
-/

namespace Sys2Proof

/-- Bit 41 of `T` (R61). -/
def weBit (T : BusWord) : Bool := T.getLsbD 41

/-- Bits 40:32 of `T` (R61). -/
def addrField (T : BusWord) : BusAddr := T.extractLsb' 32 9

/-- Bits 31:0 of `T` (R61). -/
def wdataField (T : BusWord) : BusData := T.extractLsb' 0 32

/-- Bits 7:0 of `T`, the command code when `T` is a WR to CMD (R64). -/
def codeField (T : BusWord) : BitVec 8 := T.extractLsb' 0 8

/-- The command a code names; every code outside 1 to 4 is illegal (R64, R68). -/
def decodeCommand (c : BitVec 8) : Instr :=
  if c = 0x01#8 then .reset
  else if c = 0x02#8 then .matchDuration
  else if c = 0x03#8 then .decodeGeneric
  else if c = 0x04#8 then .nextLevel
  else .cmdIllegal c

/-- R63: RD, else a command, else WR. Total: every 42-bit word is a bus operation. -/
def decode (T : BusWord) : Instr :=
  if weBit T = false then .rd (addrField T)
  else if addrField T = 0 then decodeCommand (codeField T)
  else .wr (addrField T) (wdataField T)

/-- `{we, addr, wdata}` (R61). -/
def busWord (we : Bool) (addr : BusAddr) (wdata : BusData) : BusWord :=
  BitVec.ofBool we ++ addr ++ wdata

/-- The bus operation of an instruction, ignored bits written as 0 as in canonical listings (R61, R64). -/
def encode : Instr → BusWord
  | .rd a => busWord false a 0
  | .reset => busWord true 0 0x01
  | .matchDuration => busWord true 0 0x02
  | .decodeGeneric => busWord true 0 0x03
  | .nextLevel => busWord true 0 0x04
  | .cmdIllegal c => busWord true 0 (c.setWidth 32)
  | .wr a d => busWord true a d

/-- Why a number is no bus operation. -/
inductive DecodeError where
  /-- It has a bit at position 42 or above; a bus operation has 42 (R61). Safe: no operation is lost. -/
  | tooWide
  deriving DecidableEq, Repr

/-- A number as a bus operation, if it fits the 42 bits of R61. -/
def busWordOfNat (w : Nat) : Except DecodeError BusWord :=
  if w < 2 ^ 42 then .ok (BitVec.ofNat 42 w) else .error .tooWide

/-- The instruction the decoder reads from the number `w` of `nbits` bits, numbered as the opcode table numbers them;
`none` where `w` is wider than a bus operation (log 9). -/
def decodeTableWord (nbits w : Nat) : Option Instr :=
  match busWordOfNat (w % 2 ^ nbits) with
  | .ok T => some (decode T)
  | .error _ => none

/-- A row of R70: a word `T` selects it when `T AND mask = match`; `read` takes the operand fields its pattern names. -/
structure OpcodeRow where
  mnemonic  : String
  matchBits : BusWord
  mask      : BusWord
  read      : BusWord → Instr

/-- The opcode table R70, in the order its rows are tried. -/
def opcodeTable : List OpcodeRow :=
  [ ⟨"RD",             0x00000000000, 0x20000000000, fun T => .rd (addrField T)⟩,
    ⟨"RESET",          0x20000000001, 0x3FF000000FF, fun _ => .reset⟩,
    ⟨"MATCH",          0x20000000002, 0x3FF000000FF, fun _ => .matchDuration⟩,
    ⟨"DECODE_GENERIC", 0x20000000003, 0x3FF000000FF, fun _ => .decodeGeneric⟩,
    ⟨"NEXT_LEVEL",     0x20000000004, 0x3FF000000FF, fun _ => .nextLevel⟩,
    ⟨"CMD_ILLEGAL",    0x20000000000, 0x3FF00000000, fun T => .cmdIllegal (codeField T)⟩,
    ⟨"WR",             0x20000000000, 0x20000000000, fun T => .wr (addrField T) (wdataField T)⟩ ]

/-- R70: the row's match rule. -/
def OpcodeRow.selects (r : OpcodeRow) (T : BusWord) : Bool := T &&& r.mask == r.matchBits

/-- The mnemonic of an instruction's row. -/
def Instr.mnemonic : Instr → String
  | .rd _ => "RD"
  | .reset => "RESET"
  | .matchDuration => "MATCH"
  | .decodeGeneric => "DECODE_GENERIC"
  | .nextLevel => "NEXT_LEVEL"
  | .cmdIllegal _ => "CMD_ILLEGAL"
  | .wr _ _ => "WR"

end Sys2Proof
end

