-- ==== Sys2Proof/Config.lean ====
section
/-!
DEFINITION. What a build of IRPM fixes (00_scope.md R5, the OPEN parameters) and the values the spec leaves
unspecified. None of the opaque constants has a body: a claim that holds of the model holds for every value of them.
-/

namespace Sys2Proof.Config

/-- The tolerance policy built in (R5 POLICY, 41_tolerance_matcher.md R90). -/
inductive Policy where
  | abs
  | pct
  deriving DecidableEq, Repr, Inhabited

/-- The build parameters of R5. `beyondHeader` is BUF_CAP - 3, so that the range 3 to 255 of BUF_CAP is the type's own
(log 2). -/
structure Build where
  policy       : Policy
  tolAbs       : BitVec 16
  tolPct       : BitVec 8
  beyondHeader : Fin 253
  deriving DecidableEq, Repr, Inhabited

/-- BUF_CAP, the number of entries of the sample RAM (R5, 10_state.md R27). -/
def Build.bufCap (b : Build) : Nat := 3 + b.beyondHeader.val

/-- The POLICY of this build (OPEN). -/
opaque policy : Policy

/-- The TOL_ABS of this build (OPEN). -/
opaque tolAbs : BitVec 16

/-- The TOL_PCT of this build (OPEN). -/
opaque tolPct : BitVec 8

/-- The BUF_CAP of this build, less 3 (OPEN). -/
opaque beyondHeader : Fin 253

/-- The parameters of this build. -/
def build : Build := ⟨policy, tolAbs, tolPct, beyondHeader⟩

/-- FREE VALUE (log 3): what sample word `i` holds after the `r`-th hardware reset, until the host writes it (10_state.md
R33, "unspecified"; 20_memory.md R45). The first argument is `r`. -/
opaque powerOnSample : Nat → Nat → Sample

/-- FREE VALUE (log 5): the `n`-th draw, what a command reads at an index at or beyond LEN (20_memory.md R46). -/
opaque draw : Nat → Sample

end Sys2Proof.Config
end

