-- ==== Sys2Proof/Machine/State.lean ====
section
/-!
DEFINITION. The state of IRPM: the registers of 10_state.md R10, the sample RAM of R27, the bus as a step sees it, and
the value of all of it after hardware reset (R33).
-/

namespace Sys2Proof.Machine

/-- The sample words the host has written since reset, as (index, word), indices strictly rising (`SampleRam.wf`). The
content of a word not listed is unspecified (R33; 20_memory.md R45): log 3, log 4. -/
abbrev SampleRam := List (Nat × Sample)

/-- What the host can present to IRPM between two steps (30_encoding.md R60). -/
inductive HostInput where
  /-- A bus operation with `bus_valid` = 1. -/
  | op (T : BusWord)
  /-- `rst` = 1 at a rising clock edge (70_reset_and_hazards.md R160). -/
  | rst
  deriving DecidableEq, Repr

/-- How a command ends when it does not succeed (60_exceptions.md R141). -/
inductive CommandError where
  | rawCount
  | headerMark (expected : Sample)
  | headerSpace (expected : Sample)
  | dataMark (expected : Sample)
  | dataSpace (expected : Sample)
  /-- The document's `Error` of the phase cursor. -/
  | phase
  | illegalCommand (code : BitVec 8)
  deriving DecidableEq, Repr

structure State where
  /-- STATUS (R12). -/
  status       : BitVec 4
  /-- RET (R13). -/
  ret          : BitVec 2
  /-- ERRVAL (R14). -/
  errval       : BitVec 16
  /-- PROTOCOL_NUM (R15). -/
  protocolNum  : BitVec 8
  /-- VALUE (R16). -/
  value        : BitVec 32
  /-- ADDRESS (R17). -/
  address      : BitVec 16
  /-- BITS (R18). -/
  bits         : BitVec 8
  /-- OFFSET, the cursor (R19). -/
  offset       : BitVec 8
  /-- USED, the sub-interval counter (R20). -/
  used         : BitVec 2
  /-- IGNORE_HEADER (R21). -/
  ignoreHeader : BitVec 1
  /-- LEN (R22). -/
  len          : BitVec 8
  /-- P0 to P5 (R23). -/
  operands     : Vector Sample 6
  /-- What CONFIG shows (R26): the build's parameters. Nothing writes it (log 2). -/
  config       : Config.Build
  /-- The sample RAM (R27). -/
  samples      : SampleRam
  /-- `bus_rdata`: the word a RD returned, in the step that accepted it; `none` when it is not valid (R60, log 6). -/
  busRdata     : Option BusData
  /-- What the host will present, in order (30_encoding.md R71, 70_reset_and_hazards.md R175, log 1). -/
  pending      : List HostInput
  /-- How many unspecified sample reads have been answered (20_memory.md R46, log 5). -/
  draws        : Nat
  /-- How many times `rst` has reset this state (10_state.md R33, log 3): which free values the unwritten words hold. -/
  resets       : Nat
  deriving DecidableEq, Repr

/-- IRPM has no fault: "every command is total and returns, and every bus operation is defined at every address"
(93_implementation_defined.md). No constructor, so none can be raised: safe. -/
inductive Fault where
  deriving DecidableEq, Repr

/-- Why a step has no meaning. -/
inductive Refusal where
  /-- An instruction this model gives no meaning yet; raised by an arm of `exec` only, and by none now. Safe. -/
  | notModelled (mnemonic : String)
  deriving DecidableEq, Repr

/-- The state after hardware reset (R33): every register 0, CONFIG its constant, no sample word written, nothing
pending. -/
def State.reset : State where
  status       := 0
  ret          := 0
  errval       := 0
  protocolNum  := 0
  value        := 0
  address      := 0
  bits         := 0
  offset       := 0
  used         := 0
  ignoreHeader := 0
  len          := 0
  operands     := #v[0, 0, 0, 0, 0, 0]
  config       := Config.build
  samples      := []
  busRdata     := none
  pending      := []
  draws        := 0
  resets       := 0

end Sys2Proof.Machine
end

