-- ==== Sys2Proof/Machine/Flags.lean ====
section
/-!
DEFINITION. The three result fields a command ends with (10_state.md R12, R13, R14): the codes of 60_exceptions.md R141.
IRPM has no other flag (R32).
-/

namespace Sys2Proof.Machine

/-- The STATUS code of an error (R141). -/
def CommandError.status : CommandError → BitVec 4
  | .rawCount => 1
  | .headerMark _ => 2
  | .headerSpace _ => 3
  | .dataMark _ => 4
  | .dataSpace _ => 5
  | .phase => 6
  | .illegalCommand _ => 7

/-- The ERRVAL of an error: the expected duration it carries, the code of an illegal command, else 0 (R141; C9). -/
def CommandError.errval : CommandError → BitVec 16
  | .rawCount => 0
  | .headerMark e => e
  | .headerSpace e => e
  | .dataMark e => e
  | .dataSpace e => e
  | .phase => 0
  | .illegalCommand c => c.setWidth 16

/-- The RET of an error: 2, the level Error, for the phase cursor, else 0 (R13, R141). -/
def CommandError.ret : CommandError → BitVec 2
  | .rawCount => 0
  | .headerMark _ => 0
  | .headerSpace _ => 0
  | .dataMark _ => 0
  | .dataSpace _ => 0
  | .phase => 2
  | .illegalCommand _ => 0

/-- RET of a Boolean result: 1 when it holds, else 0 (R13). -/
def retOfBool (b : Bool) : BitVec 2 := if b then 1 else 0

/-- RET of a level: bit 0 of the cursor, 1 = Mark (odd), 0 = Space (even) (43_phase_cursor.md R122). -/
def levelOf (offset : BitVec 8) : BitVec 2 := if offset.getLsbD 0 then 1 else 0

end Sys2Proof.Machine
end

