-- ==== Sys2Proof/Machine/Ops.lean ====
section
/-!
DEFINITION. The shared operations on the state: the sample RAM, the operand registers, the ways a command ends, hardware
reset, and accepting the host's next input.
-/

namespace Sys2Proof.Machine

/-! ### The sample RAM -/

/-- Canonical form (log 4): the written words, indices strictly rising. -/
abbrev SampleRam.wf (m : SampleRam) : Prop := (m.map Prod.fst).Pairwise (· < ·)

/-- The word written at index `i`, if the host has written one. -/
def SampleRam.read? : SampleRam → Nat → Option Sample
  | [], _ => none
  | (j, w) :: m, i => if i = j then some w else SampleRam.read? m i

/-- What S[i] reads as when the host has not written it since reset: unspecified, a free value (R33, R45; log 3). -/
def State.unwrittenSample (s : State) (i : Nat) : Sample := Config.powerOnSample s.resets i

/-- The RAM after `v` is written to S[i], in canonical form. -/
def SampleRam.write : SampleRam → Nat → Sample → SampleRam
  | [], i, v => [(i, v)]
  | (j, w) :: m, i, v =>
    if i < j then (i, v) :: (j, w) :: m
    else if i = j then (i, v) :: m
    else (j, w) :: SampleRam.write m i v

/-- The word stored at S[i], whatever LEN is: what RD returns (40_state_ops.md R80), and what a command reads below LEN
(20_memory.md R45). -/
def State.stored (s : State) (i : Nat) : Sample := (s.samples.read? i).getD (s.unwrittenSample i)

/-- `MemRead(i, 1)` issued by a command: the stored word below LEN (R45), a draw at or beyond it (R46; log 5). -/
def State.memRead (s : State) (i : Nat) : Sample × State :=
  if i < s.len.toNat then (s.stored i, s)
  else (Config.draw s.draws, { s with draws := s.draws + 1 })

/-- `MemWrite(i, 1, v)`, done by WR only (R42). -/
def State.memWrite (s : State) (i : Nat) (v : Sample) : State :=
  { s with samples := s.samples.write i v }

/-! ### The operand registers -/

/-- `x[i]`, operand register P`i` (10_state.md R23). -/
def State.operand (s : State) (i : Fin 6) : Sample := s.operands[i]

/-- `x[i] <- v`, done by WR only (R23). -/
def State.setOperand (s : State) (i : Fin 6) (v : Sample) : State :=
  { s with operands := s.operands.set i v }

/-! ### How a command ends -/

/-- `ok(r)`: the command succeeds with return value `r` (00_scope.md R8). -/
def State.ok (s : State) (r : BitVec 2) : State :=
  { s with status := 0, errval := 0, ret := r }

/-- `raise E(info)`: the command ends with an error. Everything IRPM has of an exception: nothing is saved and control
goes nowhere (R8; 60_exceptions.md R140, R144), so there is no return either (R146). -/
def State.raise (s : State) (e : CommandError) : State :=
  { s with status := e.status, errval := e.errval, ret := e.ret }

/-- The four clears of the document's `resetDecoder`: RESET, and step 1 of DECODE_GENERIC (40_state_ops.md R83;
42_decode_generic.md R101). -/
def State.clearResult (s : State) : State :=
  { s with protocolNum := 0, value := 0, address := 0, bits := 0 }

/-! ### The host's side -/

/-- Hardware reset: every register takes its reset value, and every sample word is again of unspecified content, what it
held before included (70_reset_and_hazards.md R160, "not cleared"; R33; log 3). What the host will present next and the
model's own counts are not registers and go on (log 8). -/
def State.hardwareReset (s : State) : State :=
  { State.reset with config := s.config, pending := s.pending, draws := s.draws, resets := s.resets + 1 }

/-- IRPM takes the head of what the host presents, `rest` remaining; `bus_rdata` is valid only in the cycle of an accepted
RD (30_encoding.md R60, R62; log 6). -/
def State.accept (s : State) (rest : List HostInput) : State :=
  { s with pending := rest, busRdata := none }

/-- The port `busy` between two steps: a command is one step, so none is running (20_memory.md R50, R51; log 7). -/
def State.busy (_ : State) : Bool := false

/-- The port `bus_ready`, "the inverse of `busy`" (30_encoding.md R60). -/
def State.busReady (s : State) : Bool := !s.busy

end Sys2Proof.Machine
end

