-- ==== Sys2Proof/Machine/Operands.lean ====
section
/-!
DEFINITION. What an operation's operands name: the bus address map (20_memory.md R41) with the read and the write of
each address, and the operand registers under the names each command gives them (10_state.md R23).
-/

namespace Sys2Proof.Machine

/-- The register addresses of 10_state.md R10. -/
def registerMap : List (BusAddr × Reg) :=
  [ (0x000, .cmd), (0x001, .status), (0x002, .ret), (0x003, .errval), (0x004, .protocolNum), (0x005, .value),
    (0x006, .address), (0x007, .bits), (0x008, .offset), (0x009, .used), (0x00A, .ignoreHeader), (0x00B, .len),
    (0x010, .operand 0), (0x011, .operand 1), (0x012, .operand 2), (0x013, .operand 3), (0x014, .operand 4),
    (0x015, .operand 5), (0x01F, .config) ]

/-- What address `a` reaches in a build with `cap` sample words (R40, R41): with bit 8 set, sample `a[7:0]` if it exists;
with bit 8 clear, a register if the map lists one. -/
def target (cap : Nat) (a : BusAddr) : Target :=
  if a.getLsbD 8 then
    if a.toNat - 0x100 < cap then .sample (a.toNat - 0x100) else .unmapped
  else ((registerMap.lookup a).map Target.reg).getD .unmapped

/-- The POLICY bit of CONFIG (10_state.md R26). -/
def policyBit : Config.Policy → BitVec 1
  | .abs => 0
  | .pct => 1

/-- The TOL field of CONFIG (R26). -/
def tolField (b : Config.Build) : BitVec 16 :=
  match b.policy with
  | .abs => b.tolAbs
  | .pct => b.tolPct.setWidth 16

/-- CONFIG: reserved 31:25, BUF_CAP 24:17, POLICY 16, TOL 15:0 (R26). -/
def configWord (b : Config.Build) : BusData :=
  (0#7 ++ BitVec.ofNat 8 b.bufCap) ++ (policyBit b.policy ++ tolField b)

/-- `zext_32(r)` of a register as the bus reads it; CMD reads as 0 (R10, R11; 20_memory.md R43). -/
def State.readReg (s : State) : Reg → BusData
  | .cmd => 0
  | .status => s.status.setWidth 32
  | .ret => s.ret.setWidth 32
  | .errval => s.errval.setWidth 32
  | .protocolNum => s.protocolNum.setWidth 32
  | .value => s.value
  | .address => s.address.setWidth 32
  | .bits => s.bits.setWidth 32
  | .offset => s.offset.setWidth 32
  | .used => s.used.setWidth 32
  | .ignoreHeader => s.ignoreHeader.setWidth 32
  | .len => s.len.setWidth 32
  | .operand i => (s.operand i).setWidth 32
  | .config => configWord s.config

/-- The word RD returns for address `a` (40_state_ops.md R80). -/
def State.busRead (s : State) (a : BusAddr) : BusData :=
  match target s.config.bufCap a with
  | .reg r => s.readReg r
  | .sample i => (s.stored i).setWidth 32
  | .unmapped => 0

/-- LEN takes `wdata[7:0]` unless that is above BUF_CAP (10_state.md R22; 40_state_ops.md R82). -/
def State.writeLen (s : State) (d : BusData) : State :=
  if (d.setWidth 8).toNat ≤ s.config.bufCap then { s with len := d.setWidth 8 } else s

/-- A WR to a register: the low bits that fit are stored; CMD stores nothing, and STATUS, RET, ERRVAL and CONFIG are
read-only (40_state_ops.md R81; 20_memory.md R43, R44). -/
def State.writeReg (s : State) (d : BusData) : Reg → State
  | .cmd => s
  | .status => s
  | .ret => s
  | .errval => s
  | .protocolNum => { s with protocolNum := d.setWidth 8 }
  | .value => { s with value := d }
  | .address => { s with address := d.setWidth 16 }
  | .bits => { s with bits := d.setWidth 8 }
  | .offset => { s with offset := d.setWidth 8 }
  | .used => { s with used := d.setWidth 2 }
  | .ignoreHeader => { s with ignoreHeader := d.setWidth 1 }
  | .len => s.writeLen d
  | .operand i => s.setOperand i (d.setWidth 16)
  | .config => s

/-- The state after `d` is written to address `a` (40_state_ops.md R81). -/
def State.busWrite (s : State) (a : BusAddr) (d : BusData) : State :=
  match target s.config.bufCap a with
  | .reg r => s.writeReg d r
  | .sample i => s.memWrite i (d.setWidth 16)
  | .unmapped => s

/-! ### The operands of each command (R23) -/

/-- `observed` of MATCH. -/
def State.observed (s : State) : Sample := s.operand 0
/-- `expected` of MATCH. -/
def State.expected (s : State) : Sample := s.operand 1
/-- `expectedLength` of DECODE_GENERIC. -/
def State.expectedLength (s : State) : Sample := s.operand 0
/-- `headMark` of DECODE_GENERIC. -/
def State.headMark (s : State) : Sample := s.operand 1
/-- `headSpace` of DECODE_GENERIC. -/
def State.headSpace (s : State) : Sample := s.operand 2
/-- `markData` of DECODE_GENERIC. -/
def State.markData (s : State) : Sample := s.operand 3
/-- `spaceOne` of DECODE_GENERIC. -/
def State.spaceOne (s : State) : Sample := s.operand 4
/-- `spaceZero` of DECODE_GENERIC. -/
def State.spaceZero (s : State) : Sample := s.operand 5
/-- `t1` of NEXT_LEVEL. -/
def State.t1 (s : State) : Sample := s.operand 0

end Sys2Proof.Machine
end

