-- ==== Sys2Proof/Machine/Bus.lean ====
section
/-!
DEFINITION. The bus operations RD and WR, the RESET command and the illegal commands (40_state_ops.md R80, R81, R83;
30_encoding.md R68).
-/

namespace Sys2Proof.Machine

/-- RD `addr` (R80): the word appears on `bus_rdata`; no register and no sample changes. -/
def execRd (a : BusAddr) (s : State) : Host.Outcome State Fault Refusal :=
  .next { s with busRdata := some (s.busRead a) }

/-- WR `addr`, `wdata` (R81). -/
def execWr (a : BusAddr) (d : BusData) (s : State) : Host.Outcome State Fault Refusal :=
  .next (s.busWrite a d)

/-- RESET (R83). -/
def execReset (s : State) : Host.Outcome State Fault Refusal :=
  .next (s.clearResult.ok 0)

/-- A WR to CMD with a code that names no command (R68). -/
def execCmdIllegal (c : BitVec 8) (s : State) : Host.Outcome State Fault Refusal :=
  .next (s.raise (.illegalCommand c))

end Sys2Proof.Machine
end

