-- ==== Sys2Proof/Machine/Matcher.lean ====
section
/-!
DEFINITION. The Tolerance Matcher and the MATCH command (41_tolerance_matcher.md).
-/

namespace Sys2Proof.Machine

/-- `match_abs(o, e)` with tolerance `tol`, over the integers (R91). -/
def matchAbs (tol o e : Nat) : Bool :=
  decide ((e : Int) - tol ≤ o ∧ (o : Int) ≤ e + tol)

/-- `match_pct(o, e)` with tolerance `tol` percent, over the integers (R92). -/
def matchPct (tol o e : Nat) : Bool :=
  decide ((e : Int) * (100 - tol) ≤ 100 * o ∧ 100 * (o : Int) ≤ e * (100 + tol))

/-- `match(o, e)`: the one policy of the build (R90). -/
def toleranceMatch (b : Config.Build) (o e : Nat) : Bool :=
  match b.policy with
  | .abs => matchAbs b.tolAbs.toNat o e
  | .pct => matchPct b.tolPct.toNat o e

/-- `match(o, e)` of a sample against an operand (R95). -/
def State.fits (s : State) (observed expected : Sample) : Bool :=
  toleranceMatch s.config observed.toNat expected.toNat

/-- MATCH (R94). -/
def execMatch (s : State) : Host.Outcome State Fault Refusal :=
  .next (s.ok (retOfBool (s.fits s.observed s.expected)))

end Sys2Proof.Machine
end

