-- ==== Sys2Proof/Machine/DecodeGeneric.lean ====
section
/-!
DEFINITION. DECODE_GENERIC, the fixed-template decoder and its accumulator (42_decode_generic.md R100), one definition
per step of the document's algorithm.
-/

namespace Sys2Proof.Machine

/-- How the loop of step 6 ends: at its bound, with the cursor and ACC, or at the first check that fails. -/
inductive LoopEnd where
  | complete (offset : Nat) (acc : BitVec 64)
  | failed (e : CommandError) (offset : Nat)
  deriving DecidableEq, Repr

/-- Appending a bit: `ACC = trunc_64(2 * ACC + b)` (R106). -/
def appendBit (acc : BitVec 64) (b : Bool) : BitVec 64 := 2 * acc + (if b then 1 else 0)

/-- The bit a space stands for: 1 if it matches `spaceOne`, else 0 if it matches `spaceZero` (R105). -/
def State.spaceBit (s : State) (i : Nat) : Option Bool :=
  if s.fits (s.stored i) s.spaceOne then some true
  else if s.fits (s.stored i) s.spaceZero then some false
  else none

/-- Step 6 (R104, R105, R106): `while OFFSET + 1 < LEN`. `fuel` bounds the iterations and is never what ends the loop
(`decodeLoop_fuel` in Laws). Every index read is below LEN (R105), so the word read is the stored one. -/
def decodeLoop (s : State) : Nat → Nat → BitVec 64 → LoopEnd
  | 0, offset, acc => .complete offset acc
  | fuel + 1, offset, acc =>
    if offset + 1 < s.len.toNat then
      if s.fits (s.stored offset) s.markData then
        match s.spaceBit (offset + 1) with
        | some b => decodeLoop s fuel (offset + 2) (appendBit acc b)
        | none => .failed (.dataSpace s.spaceZero) (offset + 1)
      else .failed (.dataMark s.markData) offset
    else .complete offset acc

/-- Steps 7 and 8, or the error the loop ended with, OFFSET left at the offending sample (R104, R105, R108, R109). -/
def State.finishDecode (s : State) : LoopEnd → State
  | .failed e offset => { s with offset := BitVec.ofNat 8 offset }.raise e
  | .complete offset acc =>
    { s with
      offset  := BitVec.ofNat 8 offset
      bits    := BitVec.ofNat 8 ((offset - 1) / 2 - 1)
      value   := acc.setWidth 32
      address := acc.extractLsb' 32 16 }.ok 0

/-- Steps 5 to 8: OFFSET is 3 and ACC is 0 when the loop starts (R111). -/
def State.decodeData (s : State) : State :=
  s.finishDecode (decodeLoop s s.len.toNat 3 0)

/-- Step 4 (R103): the header space, unless `headSpace` = 0. IGNORE_HEADER does not skip it (C7). -/
def State.checkHeaderSpace (s : State) : State :=
  if s.headSpace ≠ 0 then
    let r := s.memRead 2
    if s.fits r.1 s.headSpace then r.2.decodeData else r.2.raise (.headerSpace s.headSpace)
  else s.decodeData

/-- Step 3 (R102): the header mark, unless IGNORE_HEADER is set or `headMark` = 0. -/
def State.checkHeaderMark (s : State) : State :=
  if s.ignoreHeader = 0 ∧ s.headMark ≠ 0 then
    let r := s.memRead 1
    if s.fits r.1 s.headMark then r.2.checkHeaderSpace else r.2.raise (.headerMark s.headMark)
  else s.checkHeaderSpace

/-- Step 2 (R107): the length, unless `expectedLength` = 0. -/
def State.checkLength (s : State) : State :=
  if s.expectedLength ≠ 0 ∧ s.len.setWidth 16 ≠ s.expectedLength then s.raise .rawCount
  else s.checkHeaderMark

/-- DECODE_GENERIC (R100): step 1 clears the result first, whatever follows (R101). -/
def execDecodeGeneric (s : State) : Host.Outcome State Fault Refusal :=
  .next s.clearResult.checkLength

end Sys2Proof.Machine
end

