-- ==== Sys2Proof/Machine/NextLevel.lean ====
section
/-!
DEFINITION. NEXT_LEVEL, the phase-encoding cursor (43_phase_cursor.md R120).
-/

namespace Sys2Proof.Machine

/-- Step 3 (R123): how many unit intervals of `t` microseconds a sample of `width` is, tried as 1, 2, 3; exact
products. -/
def classifyWidth (b : Config.Build) (width t : Nat) : Option Nat :=
  if toleranceMatch b width t then some 1
  else if toleranceMatch b width (2 * t) then some 2
  else if toleranceMatch b width (3 * t) then some 3
  else none

/-- Step 4 (R124): the clipped first mark, tolerated when IGNORE_HEADER is set. -/
def State.clippedFirstMark (s : State) (width : Sample) : Bool :=
  decide (s.ignoreHeader = 1 ∧ s.offset = 1 ∧ width.toNat < s.t1.toNat)

/-- `avail` of steps 3 and 4; `none` is step 5. -/
def State.avail (s : State) (width : Sample) : Option Nat :=
  match classifyWidth s.config width.toNat s.t1.toNat with
  | some a => some a
  | none => if s.clippedFirstMark width then some 1 else none

/-- Step 6 (R126): count one sub-interval, and move to the next sample when `avail` is reached. -/
def State.countSubInterval (s : State) (avail : Nat) : State :=
  if s.used.toNat + 1 ≥ avail then { s with used := 0, offset := s.offset + 1 }
  else { s with used := BitVec.ofNat 2 (s.used.toNat + 1) }

/-- Steps 2 to 7, on the sample under the cursor; the level is that of the OFFSET the command started with (R122,
R127). -/
def State.readLevel (s : State) : State :=
  match s.avail (s.stored s.offset.toNat) with
  | some a => (s.countSubInterval a).ok (levelOf s.offset)
  | none => s.raise .phase

/-- NEXT_LEVEL (R120). Step 1: past the end, Space, and nothing moves (R121). -/
def execNextLevel (s : State) : Host.Outcome State Fault Refusal :=
  .next (if s.len.toNat ≤ s.offset.toNat then s.ok 0 else s.readLevel)

end Sys2Proof.Machine
end

