-- ==== Sys2Proof/Machine/Dispatch.lean ====
section
/-!
DEFINITION. One arm per operation of spec/opcode_table.json, each the meaning of that operation.
-/

namespace Sys2Proof.Machine

def exec (i : Instr) (s : State) : Host.Outcome State Fault Refusal :=
  match i with
  | .rd a => Sys2Proof.Machine.execRd a s
  | .reset => Sys2Proof.Machine.execReset s
  | .matchDuration => Sys2Proof.Machine.execMatch s
  | .decodeGeneric => Sys2Proof.Machine.execDecodeGeneric s
  | .nextLevel => Sys2Proof.Machine.execNextLevel s
  | .cmdIllegal c => Sys2Proof.Machine.execCmdIllegal c s
  | .wr a d => Sys2Proof.Machine.execWr a d s

end Sys2Proof.Machine
end

