-- ==== Sys2Proof/Machine/Step.lean ====
section
/-!
DEFINITION. One step: IRPM accepts what the host presents next and does all of it (20_memory.md R50;
70_reset_and_hazards.md R160, R175).
-/

namespace Sys2Proof.Machine

/-- One step. With nothing presented IRPM idles, its registers held (60_exceptions.md R150); `rst` resets it (R160); a
bus operation is decoded and takes effect completely (30_encoding.md R62). -/
def step (s : State) : Host.Outcome State Fault Refusal :=
  match s.pending with
  | [] => .next (s.accept [])
  | .rst :: rest => .next (s.accept rest).hardwareReset
  | .op T :: rest => exec (decode T) (s.accept rest)

/-- `s` with the bus operation `w` (of `nbits` bits, taken on the 42 wires of R61) presented next (log 1, log 9). -/
def State.withFetchWord (s : State) (nbits w : Nat) : State :=
  { s with pending := .op (BitVec.ofNat 42 (w % 2 ^ nbits)) :: s.pending }

end Sys2Proof.Machine
end

