-- ==== Sys2Proof/Safety.lean ====
section
/-!
DEFINITION. What claims about IRPM speak of: the invariant of its states, the checks DECODE_GENERIC makes in the words
of the spec, and a command repeated.
-/

namespace Sys2Proof

/-- The commands: every WR to CMD (30_encoding.md R64, R68). -/
def Instr.isCommand : Instr → Bool
  | .rd _ => false
  | .reset => true
  | .matchDuration => true
  | .decodeGeneric => true
  | .nextLevel => true
  | .cmdIllegal _ => true
  | .wr _ _ => false

end Sys2Proof

namespace Sys2Proof.Machine

/-! ### The invariant -/

/-- What STATUS, RET and ERRVAL can hold together (10_state.md R12, R13, R14; 60_exceptions.md R141). -/
structure State.ResultLegal (s : State) : Prop where
  statusRange   : s.status.toNat ≤ 7
  retRange      : s.ret ≠ 3
  retError      : s.ret = 2 ↔ s.status = 6
  retZero       : s.status ≠ 0 → s.status ≠ 6 → s.ret = 0
  errvalZero    : s.status = 0 ∨ s.status = 1 ∨ s.status = 6 → s.errval = 0
  errvalIllegal : s.status = 7 → s.errval = 0 ∨ 5 ≤ s.errval.toNat ∧ s.errval.toNat ≤ 255

/-- The states IRPM can be in. -/
structure State.Inv (s : State) : Prop where
  /-- LEN <= BUF_CAP (10_state.md R22; 40_state_ops.md R82). -/
  lenBound      : s.len.toNat ≤ s.config.bufCap
  /-- The sample RAM is in canonical form (log 4). -/
  samplesWf     : s.samples.wf
  /-- Only words that exist are written (10_state.md R27). -/
  samplesMapped : ∀ c ∈ s.samples, c.1 < s.config.bufCap
  result        : s.ResultLegal

/-! ### Operations -/

/-- Performing `i` again and again, nothing else in between. -/
def repeated (i : Instr) : Nat → State → Option State
  | 0, s => some s
  | n + 1, s =>
    match repeated i n s with
    | some t =>
      match exec i t with
      | .next u => some u
      | .fault _ => none
      | .refused _ => none
    | none => none

/-- The width of what the host can write at address `a` in a build with `cap` sample words (10_state.md R10; CMD and LEN
apart). -/
def storedWidth (cap : Nat) (a : Nat) : Option Nat :=
  if a = 0x004 then some 8
  else if a = 0x005 then some 32
  else if a = 0x006 then some 16
  else if a = 0x007 then some 8
  else if a = 0x008 then some 8
  else if a = 0x009 then some 2
  else if a = 0x00A then some 1
  else if 0x010 ≤ a ∧ a ≤ 0x015 then some 16
  else if 0x100 ≤ a ∧ a < 0x100 + cap then some 16
  else none

/-! ### The checks of DECODE_GENERIC (42_decode_generic.md) -/

/-- The number of mark and space pairs the loop walks, from LEN alone (R108). -/
def State.pairCount (s : State) : Nat := (s.len.toNat - 3) / 2

/-- Step 2 passes (R107). -/
def State.LengthPasses (s : State) : Prop :=
  s.expectedLength = 0 ∨ s.expectedLength.toNat = s.len.toNat

/-- Step 3 passes, on a sample below LEN or with the check skipped (R102). -/
def State.HeaderMarkPasses (s : State) : Prop :=
  s.ignoreHeader = 1 ∨ s.headMark = 0 ∨ 1 < s.len.toNat ∧ s.fits (s.stored 1) s.headMark = true

/-- Step 4 passes, on a sample below LEN or with the check skipped (R103). -/
def State.HeaderSpacePasses (s : State) : Prop :=
  s.headSpace = 0 ∨ 2 < s.len.toNat ∧ s.fits (s.stored 2) s.headSpace = true

/-- The mark of pair `j` matches `markData` (R104). -/
def State.MarkPasses (s : State) (j : Nat) : Prop := s.fits (s.stored (3 + 2 * j)) s.markData = true

/-- The space of pair `j` is a 1 (R105). -/
def State.isOne (s : State) (j : Nat) : Bool := s.fits (s.stored (4 + 2 * j)) s.spaceOne

/-- The space of pair `j` matches `spaceOne` or `spaceZero` (R105). -/
def State.SpacePasses (s : State) (j : Nat) : Prop :=
  s.isOne j = true ∨ s.fits (s.stored (4 + 2 * j)) s.spaceZero = true

/-- Pairs 0 to k - 1 all pass. -/
def State.PairsPass (s : State) (k : Nat) : Prop := ∀ j < k, s.MarkPasses j ∧ s.SpacePasses j

/-- `b1 * 2^(k-1) + b2 * 2^(k-2) + ... + bk`, the k bits `b 0` to `b (k-1)`, first-received bit highest (R106). -/
def bitsNumber (b : Nat → Bool) (k : Nat) : Nat := ∑ j ∈ Finset.range k, (b j).toNat * 2 ^ (k - 1 - j)

/-- The Decoder State after DECODE_GENERIC succeeds on `k` pairs standing for the number `v` (R108, R109). -/
def State.decoded (s : State) (k v : Nat) : State :=
  { s with
    status := 0, ret := 0, errval := 0, protocolNum := 0
    value := BitVec.ofNat 32 v, address := BitVec.ofNat 16 (v / 2 ^ 32), bits := BitVec.ofNat 8 k
    offset := BitVec.ofNat 8 (3 + 2 * k) }

/-- The state after DECODE_GENERIC fails with STATUS `c` and ERRVAL `e`, OFFSET at `offset` (R112). -/
def State.decodeFailed (s : State) (c : BitVec 4) (e : BitVec 16) (offset : BitVec 8) : State :=
  { s with
    status := c, ret := 0, errval := e, protocolNum := 0, value := 0, address := 0, bits := 0, offset := offset }

end Sys2Proof.Machine
end

