-- ==== Sys2Proof/Certificates/Slice0/Obligations.lean ====
section
/-!
DEFINITION. The statements about IRPM, in the order of OBLIGATIONS.json.
-/

open Sys2Proof Sys2Proof.Machine

/-! ### Encoding -/

/-- Words the spec prints (R61, R80, R81, R83 and vectors B15, B18) decode to the operations it prints beside them. -/
def Obligations.PrintedWordsDecode : Prop :=
  decode 0x20B00000014 = .wr 0x00B 20 ∧ decode 0x00700000000 = .rd 0x007 ∧
  decode 0x30300000230 = .wr 0x103 0x230 ∧ decode 0x20000000001 = .reset ∧
  decode 0x20000000101 = .reset ∧ decode 0x20000000002 = .matchDuration ∧
  decode 0x20000000003 = .decodeGeneric ∧ decode 0x20000000004 = .nextLevel ∧
  decode 0x200000000FF = .cmdIllegal 0xFF

/-- Every well-formed operation, with every operand, comes back from its encoding (R61, R63, R64). -/
def Obligations.DecodeOfEncodeIsIdentity : Prop :=
  ∀ i : Instr, i.wellFormed = true → decode (encode i) = i

/-- R70: the decoder gives the first row of the opcode table that the word selects, with that row's fields. -/
def Obligations.DecodeTakesFirstMatchingRow : Prop :=
  ∀ T : BusWord, ∃ r, opcodeTable.find? (fun r => r.selects T) = some r ∧
    r.mnemonic = (decode T).mnemonic ∧ r.read T = decode T

/-- R63, R64, R69: two words decode alike exactly when they agree outside the ignored bits. -/
def Obligations.DecodeIgnoresOnlyIgnoredBits : Prop :=
  ∀ T U : BusWord, decode T = decode U ↔
    weBit T = weBit U ∧ addrField T = addrField U ∧
    (weBit T = true → codeField T = codeField U ∧ (addrField T ≠ 0 → wdataField T = wdataField U))

/-! ### Steps and reset -/

/-- A step on a bus operation is the meaning of the operation it decodes to, on the state with that operation taken
from what the host presents and `bus_rdata` not valid (R50, R62; the queue is log 1). -/
def Obligations.StepRunsDecodedOperation : Prop :=
  ∀ (s : State) (T : BusWord) (rest : List HostInput), s.pending = .op T :: rest →
    step s = exec (decode T) { s with pending := rest, busRdata := none }

/-- With nothing presented a step holds every register and sample (R150, R175; log 1, log 6). -/
def Obligations.IdleStepHoldsState : Prop :=
  ∀ s : State, s.pending = [] → step s = .next { s with busRdata := none }

/-- A step on `rst` gives every register its reset value and leaves no sample word with a specified value (R160, R33);
what the host still presents stays, which is the model's choice (log 1, log 8). -/
def Obligations.HardwareResetGivesTheResetValues : Prop :=
  ∀ (s : State) (rest : List HostInput), s.pending = .rst :: rest →
    ∃ t, step s = .next t ∧
      t.status = 0 ∧ t.ret = 0 ∧ t.errval = 0 ∧ t.protocolNum = 0 ∧ t.value = 0 ∧ t.address = 0 ∧ t.bits = 0 ∧
      t.offset = 0 ∧ t.used = 0 ∧ t.ignoreHeader = 0 ∧ t.len = 0 ∧ (∀ i : Fin 6, t.operand i = 0) ∧
      t.config = s.config ∧ (∀ i, t.samples.read? i = none) ∧ t.pending = rest

/-- R33: the state after hardware reset. CONFIG is the build's constant, and no sample word has a specified value. -/
def Obligations.ResetStateValues : Prop :=
  State.reset.status = 0 ∧ State.reset.ret = 0 ∧ State.reset.errval = 0 ∧ State.reset.protocolNum = 0 ∧
  State.reset.value = 0 ∧ State.reset.address = 0 ∧ State.reset.bits = 0 ∧ State.reset.offset = 0 ∧
  State.reset.used = 0 ∧ State.reset.ignoreHeader = 0 ∧ State.reset.len = 0 ∧
  (∀ i : Fin 6, State.reset.operand i = 0) ∧ State.reset.config = Config.build ∧
  (∀ i, State.reset.samples.read? i = none)

/-! ### RD, WR, RESET, illegal commands -/

/-- R80: RD of every address, mapped or not; its frame is that nothing but `bus_rdata` changes. -/
def Obligations.RdReturnsTheAddressedWord : Prop :=
  (∀ T : BusWord, weBit T = false → decode T = .rd (addrField T)) ∧
  ∀ (s : State) (a : BusAddr), ∃ v : BusData,
    exec (.rd a) s = .next { s with busRdata := some v } ∧
    (a.toNat = 0x000 → v = 0) ∧
    (a.toNat = 0x001 → v.toNat = s.status.toNat) ∧
    (a.toNat = 0x002 → v.toNat = s.ret.toNat) ∧
    (a.toNat = 0x003 → v.toNat = s.errval.toNat) ∧
    (a.toNat = 0x004 → v.toNat = s.protocolNum.toNat) ∧
    (a.toNat = 0x005 → v.toNat = s.value.toNat) ∧
    (a.toNat = 0x006 → v.toNat = s.address.toNat) ∧
    (a.toNat = 0x007 → v.toNat = s.bits.toNat) ∧
    (a.toNat = 0x008 → v.toNat = s.offset.toNat) ∧
    (a.toNat = 0x009 → v.toNat = s.used.toNat) ∧
    (a.toNat = 0x00A → v.toNat = s.ignoreHeader.toNat) ∧
    (a.toNat = 0x00B → v.toNat = s.len.toNat) ∧
    (0x00C ≤ a.toNat ∧ a.toNat ≤ 0x00F → v = 0) ∧
    (∀ i : Fin 6, a.toNat = 0x010 + i.val → v.toNat = (s.operand i).toNat) ∧
    (0x016 ≤ a.toNat ∧ a.toNat ≤ 0x01E → v = 0) ∧
    (a.toNat = 0x01F → s.config.policy = .abs →
      v.toNat = s.config.bufCap * 2 ^ 17 + s.config.tolAbs.toNat) ∧
    (a.toNat = 0x01F → s.config.policy = .pct →
      v.toNat = s.config.bufCap * 2 ^ 17 + 2 ^ 16 + s.config.tolPct.toNat) ∧
    (0x020 ≤ a.toNat ∧ a.toNat ≤ 0x0FF → v = 0) ∧
    (∀ i < s.config.bufCap, a.toNat = 0x100 + i → v.toNat = (s.stored i).toNat) ∧
    (0x100 + s.config.bufCap ≤ a.toNat → v = 0)

/-- R81: WR of every address but CMD, the low bits kept, LEN guarded, everything else silent and unchanged. -/
def Obligations.WrStoresTheLowBits : Prop :=
  (∀ T : BusWord, weBit T = true → addrField T ≠ 0 → decode T = .wr (addrField T) (wdataField T)) ∧
  ∀ (s : State) (a : BusAddr) (d : BusData),
    (a.toNat = 0x004 → exec (.wr a d) s = .next { s with protocolNum := BitVec.ofNat 8 d.toNat }) ∧
    (a.toNat = 0x005 → exec (.wr a d) s = .next { s with value := d }) ∧
    (a.toNat = 0x006 → exec (.wr a d) s = .next { s with address := BitVec.ofNat 16 d.toNat }) ∧
    (a.toNat = 0x007 → exec (.wr a d) s = .next { s with bits := BitVec.ofNat 8 d.toNat }) ∧
    (a.toNat = 0x008 → exec (.wr a d) s = .next { s with offset := BitVec.ofNat 8 d.toNat }) ∧
    (a.toNat = 0x009 → exec (.wr a d) s = .next { s with used := BitVec.ofNat 2 d.toNat }) ∧
    (a.toNat = 0x00A → exec (.wr a d) s = .next { s with ignoreHeader := BitVec.ofNat 1 d.toNat }) ∧
    (a.toNat = 0x00B → d.toNat % 256 ≤ s.config.bufCap →
      exec (.wr a d) s = .next { s with len := BitVec.ofNat 8 d.toNat }) ∧
    (a.toNat = 0x00B → s.config.bufCap < d.toNat % 256 → exec (.wr a d) s = .next s) ∧
    (∀ i : Fin 6, a.toNat = 0x010 + i.val → ∃ t, exec (.wr a d) s = .next t ∧
      (∀ j, t.operand j = if j = i then BitVec.ofNat 16 d.toNat else s.operand j) ∧
      { t with operands := s.operands } = s) ∧
    (∀ i < s.config.bufCap, a.toNat = 0x100 + i → ∃ t, exec (.wr a d) s = .next t ∧
      (∀ j, t.stored j = if j = i then BitVec.ofNat 16 d.toNat else s.stored j) ∧
      { t with samples := s.samples } = s) ∧
    ((0x001 ≤ a.toNat ∧ a.toNat ≤ 0x003) ∨ (0x00C ≤ a.toNat ∧ a.toNat ≤ 0x00F) ∨
      (0x016 ≤ a.toNat ∧ a.toNat ≤ 0x0FF) ∨ 0x100 + s.config.bufCap ≤ a.toNat →
      exec (.wr a d) s = .next s)

/-- R43, R50, R23: a word read back is the low bits of the word last written there, and no other address reads
differently for the write. LEN is the case apart: there the write is kept only when it is at most BUF_CAP. -/
def Obligations.ReadBackAfterWrite : Prop :=
  ∀ (s : State) (a : BusAddr) (d : BusData) (n : Nat),
    (storedWidth s.config.bufCap a.toNat = some n ∨
      (a.toNat = 0x00B ∧ n = 8 ∧ d.toNat % 256 ≤ s.config.bufCap)) →
    ∃ t, exec (.wr a d) s = .next t ∧
      exec (.rd a) t = .next { t with busRdata := some (BitVec.ofNat 32 (d.toNat % 2 ^ n)) } ∧
      ∀ b : BusAddr, b ≠ a → ∃ v, exec (.rd b) s = .next { s with busRdata := some v } ∧
        exec (.rd b) t = .next { t with busRdata := some v }

/-- R83: the command of code 0x01, and its whole effect. -/
def Obligations.ResetClearsDecoderState : Prop :=
  (∀ T : BusWord, weBit T = true → addrField T = 0 → codeField T = 0x01 → decode T = .reset) ∧
  ∀ s : State, exec .reset s =
    .next { s with protocolNum := 0, value := 0, address := 0, bits := 0, status := 0, errval := 0, ret := 0 }

/-- R68: every WR to CMD with a code outside 1 to 4, and its whole effect. -/
def Obligations.IllegalCommandReported : Prop :=
  ∀ (T : BusWord) (s : State), weBit T = true → addrField T = 0 →
    ((codeField T).toNat = 0 ∨ 5 ≤ (codeField T).toNat) →
    exec (decode T) s =
      .next { s with status := 7, errval := BitVec.ofNat 16 (codeField T).toNat, ret := 0 }

/-! ### The Tolerance Matcher -/

/-- R94: the command of code 0x02, with the window of R91 or R92 written out over the integers. -/
def Obligations.MatchReportsTheWindow : Prop :=
  (∀ T : BusWord, weBit T = true → addrField T = 0 → codeField T = 0x02 → decode T = .matchDuration) ∧
  ∀ s : State,
    (s.config.policy = .abs → exec .matchDuration s = .next { s with
      status := 0, errval := 0
      ret := if ((s.operand 1).toNat : ℤ) - s.config.tolAbs.toNat ≤ (s.operand 0).toNat ∧
                ((s.operand 0).toNat : ℤ) ≤ (s.operand 1).toNat + s.config.tolAbs.toNat then 1 else 0 }) ∧
    (s.config.policy = .pct → exec .matchDuration s = .next { s with
      status := 0, errval := 0
      ret := if ((s.operand 1).toNat : ℤ) * (100 - s.config.tolPct.toNat) ≤ 100 * (s.operand 0).toNat ∧
                100 * ((s.operand 0).toNat : ℤ) ≤ (s.operand 1).toNat * (100 + s.config.tolPct.toNat)
             then 1 else 0 })

/-- R93: the seven laws of the predicate. Laws 2 to 7 are the spec's own inference: "Laws 2 to 7 are [derived: from
rule R91 and rule R92]". -/
def Obligations.MatcherLaws : Prop :=
  (∀ (b : Config.Build) (e : Nat), toleranceMatch b e e = true) ∧
  (∀ (b : Config.Build) (e : Nat), b.policy = .abs →
    toleranceMatch b (e + b.tolAbs.toNat) e = true ∧
    toleranceMatch b (e + b.tolAbs.toNat + 1) e = false ∧
    (b.tolAbs.toNat ≤ e → toleranceMatch b (e - b.tolAbs.toNat) e = true) ∧
    (b.tolAbs.toNat + 1 ≤ e → toleranceMatch b (e - b.tolAbs.toNat - 1) e = false)) ∧
  (∀ (b : Config.Build) (e o : Nat) (lo hi : ℤ), b.policy = .pct →
    lo = ⌈((e : ℚ) * (100 - b.tolPct.toNat) / 100)⌉ → hi = ⌊((e : ℚ) * (100 + b.tolPct.toNat) / 100)⌋ →
    ((o : ℤ) = lo → toleranceMatch b o e = true) ∧
    ((o : ℤ) = hi → toleranceMatch b o e = true) ∧
    ((o : ℤ) = hi + 1 → toleranceMatch b o e = false) ∧
    (1 ≤ lo → (o : ℤ) = lo - 1 → toleranceMatch b o e = false) ∧
    (100 ∣ e * b.tolPct.toNat → lo = e - (e * b.tolPct.toNat / 100 : ℕ) ∧ hi = e + (e * b.tolPct.toNat / 100 : ℕ))) ∧
  (∀ (b : Config.Build) (e o p q : Nat), toleranceMatch b p e = true → toleranceMatch b q e = true →
    p ≤ o → o ≤ q → toleranceMatch b o e = true) ∧
  (∀ (b : Config.Build) (o : Nat),
    (b.policy = .abs → (toleranceMatch b o 0 = true ↔ o ≤ b.tolAbs.toNat)) ∧
    (b.policy = .pct → (toleranceMatch b o 0 = true ↔ o = 0))) ∧
  ((∀ (b : Config.Build) (o e : Nat), b.policy = .abs → toleranceMatch b o e = toleranceMatch b e o) ∧
    ∃ (b : Config.Build) (o e : Nat), b.policy = .pct ∧ toleranceMatch b o e ≠ toleranceMatch b e o) ∧
  (∀ (b : Config.Build) (o e : Nat),
    b.policy = .abs ∧ b.tolAbs = 0 ∨ b.policy = .pct ∧ b.tolPct = 0 →
    (toleranceMatch b o e = true ↔ o = e))

/-- R129, an inference the spec marks as its own ("[derived: from 41_tolerance_matcher.md rule R91 and rule R92]"): a
width shorter than `t` that matches 2t or 3t matches t; so testing the clipped first mark before or after step 3 gives
the same count. -/
def Obligations.ClippedMarkOrderIsIrrelevant : Prop :=
  (∀ (b : Config.Build) (w t : Nat), w < t →
    toleranceMatch b w (2 * t) = true ∨ toleranceMatch b w (3 * t) = true → toleranceMatch b w t = true) ∧
  ∀ (s : State) (w : Sample), s.clippedFirstMark w = true → s.avail w = some 1

/-! ### DECODE_GENERIC -/

/-- R107: RawCountError exactly when `expectedLength` is not 0 and differs from LEN, whatever else is wrong. -/
def Obligations.RawCountErrorIffLengthDiffers : Prop :=
  ∀ s : State, ∃ t, exec .decodeGeneric s = .next t ∧
    (t.status = 1 ↔ s.expectedLength ≠ 0 ∧ s.expectedLength.toNat ≠ s.len.toNat) ∧
    (s.expectedLength ≠ 0 ∧ s.expectedLength.toNat ≠ s.len.toNat → t = s.decodeFailed 1 0 s.offset)

/-- R102, R145: HeaderMarkError, when the length passes and S[1], a valid sample, is checked and does not match. -/
def Obligations.HeaderMarkErrorReported : Prop :=
  ∀ s : State, s.LengthPasses → 1 < s.len.toNat → s.ignoreHeader = 0 → s.headMark ≠ 0 →
    s.fits (s.stored 1) s.headMark = false →
    exec .decodeGeneric s = .next (s.decodeFailed 2 s.headMark s.offset)

/-- R103, R145, C7: HeaderSpaceError, whatever IGNORE_HEADER is, when the earlier checks pass. -/
def Obligations.HeaderSpaceErrorReported : Prop :=
  ∀ s : State, s.LengthPasses → s.HeaderMarkPasses → 2 < s.len.toNat → s.headSpace ≠ 0 →
    s.fits (s.stored 2) s.headSpace = false →
    exec .decodeGeneric s = .next (s.decodeFailed 3 s.headSpace s.offset)

/-- R104, R145: DataMarkError at the first pair whose mark does not match `markData`, OFFSET left at that mark. -/
def Obligations.DataMarkErrorReported : Prop :=
  ∀ (s : State) (k : Nat), s.LengthPasses → s.HeaderMarkPasses → s.HeaderSpacePasses → k < s.pairCount →
    s.PairsPass k → ¬ s.MarkPasses k →
    exec .decodeGeneric s = .next (s.decodeFailed 4 s.markData (BitVec.ofNat 8 (3 + 2 * k)))

/-- R105, R145: DataSpaceError at the first pair whose space matches neither duration, OFFSET left at that space and
ERRVAL `spaceZero`. -/
def Obligations.DataSpaceErrorReported : Prop :=
  ∀ (s : State) (k : Nat), s.LengthPasses → s.HeaderMarkPasses → s.HeaderSpacePasses → k < s.pairCount →
    s.PairsPass k → s.MarkPasses k → ¬ s.SpacePasses k →
    exec .decodeGeneric s = .next (s.decodeFailed 5 s.spaceZero (BitVec.ofNat 8 (4 + 2 * k)))

/-- R106, R108, R109: when every check passes, BITS is the number of pairs and VALUE and ADDRESS are the two parts of
the 64-bit accumulator of the bits, first-received bit highest. -/
def Obligations.SuccessfulDecodeDeliversTheBits : Prop :=
  ∀ s : State, s.LengthPasses → s.HeaderMarkPasses → s.HeaderSpacePasses → s.PairsPass s.pairCount →
    exec .decodeGeneric s =
      .next (s.decoded s.pairCount (bitsNumber s.isOne s.pairCount % 2 ^ 64))

/-- R110: more than 48 bits is no error: BITS is the count, and ADDRESS and VALUE hold the last 48 bits received. -/
def Obligations.LongFramesKeepTheLast48Bits : Prop :=
  ∀ s : State, s.LengthPasses → s.HeaderMarkPasses → s.HeaderSpacePasses → s.PairsPass s.pairCount →
    48 < s.pairCount →
    ∃ t, exec .decodeGeneric s = .next t ∧ t.status = 0 ∧ t.bits.toNat = s.pairCount ∧
      t.address.toNat * 2 ^ 32 + t.value.toNat = bitsNumber (fun j => s.isOne (s.pairCount - 48 + j)) 48

/-- R100, R112, R145, and for the BITS and OFFSET of a success R108, an inference the spec marks as its own
("[derived: from rule R111, rule R104 and rule R105]"): how DECODE_GENERIC ends on any state at all, and what it
leaves alone. -/
def Obligations.DecodeOutcomeOnEveryState : Prop :=
  ∀ s : State, ∃ t, exec .decodeGeneric s = .next t ∧
    t.protocolNum = 0 ∧ t.ret = 0 ∧ t.status.toNat ≤ 5 ∧
    (t.status ≠ 0 → t.value = 0 ∧ t.address = 0 ∧ t.bits = 0) ∧
    (t.status = 0 → t.errval = 0 ∧ t.offset.toNat = 3 + 2 * s.pairCount ∧ t.bits.toNat = s.pairCount) ∧
    (t.status = 1 → t.errval = 0 ∧ t.offset = s.offset) ∧
    (t.status = 2 → t.errval = s.headMark ∧ t.offset = s.offset ∧ s.ignoreHeader = 0 ∧ s.headMark ≠ 0) ∧
    (t.status = 3 → t.errval = s.headSpace ∧ t.offset = s.offset ∧ s.headSpace ≠ 0) ∧
    (t.status = 4 → t.errval = s.markData ∧
      ∃ k < s.pairCount, t.offset.toNat = 3 + 2 * k ∧ s.PairsPass k ∧ ¬ s.MarkPasses k) ∧
    (t.status = 5 → t.errval = s.spaceZero ∧
      ∃ k < s.pairCount, t.offset.toNat = 4 + 2 * k ∧ s.PairsPass k ∧ s.MarkPasses k ∧ ¬ s.SpacePasses k) ∧
    t.used = s.used ∧ t.ignoreHeader = s.ignoreHeader ∧ t.len = s.len ∧ t.operands = s.operands ∧
    t.config = s.config ∧ t.samples = s.samples ∧ t.resets = s.resets ∧ t.pending = s.pending ∧
    t.busRdata = s.busRdata

/-- R29, and R118, an inference the spec marks as its own: on a populated buffer DECODE_GENERIC succeeds if and only
if every check passes. -/
def Obligations.DecodeSucceedsIffEveryCheckPasses : Prop :=
  ∀ s : State, 3 ≤ s.len.toNat → ∃ t, exec .decodeGeneric s = .next t ∧
    (t.status = 0 ↔
      s.LengthPasses ∧ s.HeaderMarkPasses ∧ s.HeaderSpacePasses ∧ s.PairsPass s.pairCount)

/-- R113, R46: buffers with no data pair. With LEN below 3 a checked header sample at or beyond LEN is unspecified,
and the command succeeds or gives that header's error. -/
def Obligations.ShortBuffersGiveNoBits : Prop :=
  ∀ s : State, s.len.toNat ≤ 4 → s.LengthPasses →
    (s.HeaderMarkPasses → s.HeaderSpacePasses → exec .decodeGeneric s = .next (s.decoded 0 0)) ∧
    ∃ t, exec .decodeGeneric s = .next t ∧
      (t.status = 0 ∧ t.bits = 0 ∧ t.value = 0 ∧ t.address = 0 ∧ t.offset = 3 ∨
       t.status = 2 ∧ t.errval = s.headMark ∧ t.offset = s.offset ∧ s.ignoreHeader = 0 ∧ s.headMark ≠ 0 ∨
       t.status = 3 ∧ t.errval = s.headSpace ∧ t.offset = s.offset ∧ s.headSpace ≠ 0)

/-- R115: a buffer built from an N-bit number decodes to that number, exactly built or moved inside the windows; the
second is an inference the spec marks as its own ("[derived: from rule R100 and 41_tolerance_matcher.md rule R93]").
-/
def Obligations.DecodeRoundTrip : Prop :=
  (∀ (s : State) (N v : Nat), N ≤ 48 → v < 2 ^ N → s.len.toNat = 2 * N + 4 →
    (s.expectedLength = 0 ∨ s.expectedLength.toNat = 2 * N + 4) →
    s.fits s.spaceZero s.spaceOne = false →
    s.stored 1 = s.headMark → s.stored 2 = s.headSpace →
    (∀ j < N, s.stored (3 + 2 * j) = s.markData ∧
      s.stored (4 + 2 * j) = if v.testBit (N - 1 - j) then s.spaceOne else s.spaceZero) →
    s.stored (2 * N + 3) = s.markData →
    exec .decodeGeneric s = .next (s.decoded N v)) ∧
  (∀ (s : State) (N v : Nat), N ≤ 48 → v < 2 ^ N → s.len.toNat = 2 * N + 4 →
    (s.expectedLength = 0 ∨ s.expectedLength.toNat = 2 * N + 4) →
    s.fits (s.stored 1) s.headMark = true → s.fits (s.stored 2) s.headSpace = true →
    (∀ j < N, s.fits (s.stored (3 + 2 * j)) s.markData = true ∧
      if v.testBit (N - 1 - j) then s.fits (s.stored (4 + 2 * j)) s.spaceOne = true
      else s.fits (s.stored (4 + 2 * j)) s.spaceZero = true ∧ s.fits (s.stored (4 + 2 * j)) s.spaceOne = false) →
    exec .decodeGeneric s = .next (s.decoded N v))

/-- R114, R42, inferences the spec marks as its own: DECODE_GENERIC depends on no sample but S[1] to S[2 + 2k], k the
number of pairs: neither the leading gap, nor the stop mark of an even-length buffer, nor anything beyond. With LEN
below 3 and a header check on, that the two runs see the same unspecified sample is the model's choice (log 5), which
R46 does not promise. -/
def Obligations.DecodeReadsNoOtherSample : Prop :=
  ∀ (s : State) (m : SampleRam),
    (∀ i, 1 ≤ i → i ≤ 2 + 2 * s.pairCount → ({ s with samples := m } : State).stored i = s.stored i) →
    ∃ t, exec .decodeGeneric s = .next t ∧
      exec .decodeGeneric { s with samples := m } = .next { t with samples := m }

/-- R101, R100: DECODE_GENERIC reads no old Decoder State; its old OFFSET survives only where it fails before step 5.
With LEN below 3 and a header check on, that the two runs see the same unspecified sample is the model's choice (log
5), which R46 does not promise. -/
def Obligations.DecodeForgetsTheEarlierAttempt : Prop :=
  ∀ (s : State) (p : BitVec 8) (v : BitVec 32) (a : BitVec 16) (n o : BitVec 8),
    ∃ t, exec .decodeGeneric s = .next t ∧
      exec .decodeGeneric { s with protocolNum := p, value := v, address := a, bits := n, offset := o } =
        .next (if t.status = 1 ∨ t.status = 2 ∨ t.status = 3 then { t with offset := o } else t)

/-! ### NEXT_LEVEL -/

/-- R121. -/
def Obligations.PastTheEndIsSpace : Prop :=
  ∀ s : State, s.len.toNat ≤ s.offset.toNat →
    exec .nextLevel s = .next { s with status := 0, errval := 0, ret := 0 }

/-- R125: a width that none of the tests accepts. -/
def Obligations.UnclassifiableWidthIsPhaseError : Prop :=
  ∀ s : State, s.offset.toNat < s.len.toNat →
    (∀ m, 1 ≤ m → m ≤ 3 →
      toleranceMatch s.config (s.stored s.offset.toNat).toNat (m * (s.operand 0).toNat) = false) →
    ¬ (s.ignoreHeader = 1 ∧ s.offset = 1 ∧ (s.stored s.offset.toNat).toNat < (s.operand 0).toNat) →
    exec .nextLevel s = .next { s with status := 6, errval := 0, ret := 2 }

/-- R122, R123, R124, R126, R127: a sample of `m` unit intervals gives its level, the parity of OFFSET, and moves the
cursor when USED + 1 reaches `m`. -/
def Obligations.LevelReturnedAndCursorMoved : Prop :=
  ∀ (s : State) (m : Nat), s.offset.toNat < s.len.toNat →
    (1 ≤ m ∧ m ≤ 3 ∧
        toleranceMatch s.config (s.stored s.offset.toNat).toNat (m * (s.operand 0).toNat) = true ∧
        (∀ l, 1 ≤ l → l < m →
          toleranceMatch s.config (s.stored s.offset.toNat).toNat (l * (s.operand 0).toNat) = false) ∨
      m = 1 ∧ s.ignoreHeader = 1 ∧ s.offset = 1 ∧ (s.stored 1).toNat < (s.operand 0).toNat) →
    exec .nextLevel s = .next { s with
      status := 0, errval := 0, ret := BitVec.ofNat 2 (s.offset.toNat % 2)
      used   := if m ≤ s.used.toNat + 1 then 0 else BitVec.ofNat 2 (s.used.toNat + 1)
      offset := if m ≤ s.used.toNat + 1 then BitVec.ofNat 8 (s.offset.toNat + 1) else s.offset }

/-- R120, R126, R144: how NEXT_LEVEL ends on any state at all, and what it leaves alone. -/
def Obligations.NextLevelOutcomeOnEveryState : Prop :=
  ∀ s : State, ∃ t, exec .nextLevel s = .next t ∧
    (t.status = 0 ∧ (t.ret = 0 ∨ t.ret = 1) ∨ t.status = 6 ∧ t.ret = 2) ∧ t.errval = 0 ∧
    (t.status = 6 → t.used = s.used ∧ t.offset = s.offset) ∧
    (t.used = s.used ∧ t.offset = s.offset ∨
      s.offset.toNat < s.len.toNat ∧
        (t.used = 0 ∧ t.offset.toNat = s.offset.toNat + 1 ∨
         t.used.toNat = s.used.toNat + 1 ∧ t.used.toNat ≤ 2 ∧ t.offset = s.offset)) ∧
    { t with status := s.status, ret := s.ret, errval := s.errval, used := s.used, offset := s.offset } = s

/-- R128, an inference the spec marks as its own ("[derived: from rule R123 and rule R126]"): USED stays below the
count of the sample under the cursor, and a sample of `m` unit intervals is returned by exactly `m` commands, each
with its level, after which the cursor stands on the next sample with USED = 0. -/
def Obligations.SampleReturnedOncePerUnitInterval : Prop :=
  (∀ s : State, (s.used = 0 ∨ ∃ a, s.avail (s.stored s.offset.toNat) = some a ∧ s.used.toNat < a) →
    ∃ t, exec .nextLevel s = .next t ∧
      (t.used = 0 ∨ ∃ a, t.avail (t.stored t.offset.toNat) = some a ∧ t.used.toNat < a)) ∧
  ∀ (s : State) (m : Nat), s.offset.toNat < s.len.toNat → s.used = 0 →
    s.avail (s.stored s.offset.toNat) = some m →
    ∀ j, 1 ≤ j → j ≤ m →
      repeated .nextLevel j s = some { s with
        status := 0, errval := 0, ret := BitVec.ofNat 2 (s.offset.toNat % 2)
        used   := if j = m then 0 else BitVec.ofNat 2 j
        offset := if j = m then BitVec.ofNat 8 (s.offset.toNat + 1) else s.offset }

/-- R42, R133, inferences the spec marks as its own: NEXT_LEVEL depends on no sample but the one under the cursor. -/
def Obligations.NextLevelReadsOnlyTheSampleUnderTheCursor : Prop :=
  ∀ (s : State) (m : SampleRam),
    (s.offset.toNat < s.len.toNat →
      ({ s with samples := m } : State).stored s.offset.toNat = s.stored s.offset.toNat) →
    ∃ t, exec .nextLevel s = .next t ∧
      exec .nextLevel { s with samples := m } = .next { t with samples := m }

/-! ### The whole machine -/

/-- `State.Inv` holds after reset (R33; the canonical form is the model's, log 4). -/
def Obligations.InvariantAtReset : Prop := State.reset.Inv

/-- Every step keeps `State.Inv`: LEN <= BUF_CAP (R22, R82), the RAM canonical and mapped (R27, log 4), STATUS, RET
and ERRVAL in step with each other (R12, R13, R14, R141). -/
def Obligations.EveryStepKeepsInvariant : Prop :=
  ∀ s : State, s.Inv → ∃ t, step s = .next t ∧ t.Inv

/-- R34, an inference the spec marks as its own ("[derived: from the rules named in the table]"): the write matrix, a
row for each operation; and every operation completes on every state. -/
def Obligations.WriteMatrix : Prop :=
  ∀ (i : Instr) (s : State), ∃ t, exec i s = .next t ∧
    (i.isCommand = false → t.status = s.status ∧ t.ret = s.ret ∧ t.errval = s.errval) ∧
    ((i ≠ .reset ∧ i ≠ .decodeGeneric ∧ ∀ a d, i ≠ .wr a d) →
      t.protocolNum = s.protocolNum ∧ t.value = s.value ∧ t.address = s.address ∧ t.bits = s.bits) ∧
    ((i ≠ .decodeGeneric ∧ i ≠ .nextLevel ∧ ∀ a d, i ≠ .wr a d) → t.offset = s.offset) ∧
    ((i ≠ .nextLevel ∧ ∀ a d, i ≠ .wr a d) → t.used = s.used) ∧
    ((∀ a d, i ≠ .wr a d) →
      t.ignoreHeader = s.ignoreHeader ∧ t.len = s.len ∧ (∀ j, t.operand j = s.operand j) ∧
      ∀ j, t.stored j = s.stored j)

/-- R147: a command replaces STATUS, RET and ERRVAL; R32, an inference the spec marks as its own ("[derived: from rule
R12, rule R13, rule R14 and rule R21]"): its whole effect is the same whatever they held. For DECODE_GENERIC with LEN
below 3 and a header check on, that the two runs see the same unspecified sample is the model's choice (log 5), which
R46 does not promise. -/
def Obligations.ResultsAreNotSticky : Prop :=
  ∀ (i : Instr) (s : State) (c : BitVec 4) (r : BitVec 2) (e : BitVec 16), i.isCommand = true →
    ∃ t, exec i s = .next t ∧ exec i { s with status := c, ret := r, errval := e } = .next t

/-- R19, in the clause the spec marks as its own inference: OFFSET never wraps. A step leaves it, puts it where the
host wrote, resets it, moves it by one below LEN, or leaves it where a decode stopped, from 3 to LEN (3 when LEN is
shorter). -/
def Obligations.OffsetNeverWraps : Prop :=
  ∀ s : State, ∃ t, step s = .next t ∧
    (t.offset = s.offset ∨
     (∃ rest, s.pending = .rst :: rest ∧ t.offset = 0) ∨
     ∃ T rest, s.pending = .op T :: rest ∧
      ((∃ d, decode T = .wr 0x008 d ∧ t.offset = BitVec.ofNat 8 d.toNat) ∨
       (decode T = .nextLevel ∧ s.offset.toNat < s.len.toNat ∧ t.offset.toNat = s.offset.toNat + 1) ∨
       (decode T = .decodeGeneric ∧ 3 ≤ t.offset.toNat ∧ t.offset.toNat ≤ max 3 s.len.toNat)))

/-- R15: only a WR to PROTOCOL_NUM puts an identifier there; every other step leaves it or makes it UNKNOWN. -/
def Obligations.OnlyTheHostNamesAProtocol : Prop :=
  ∀ s : State, ∃ t, step s = .next t ∧
    (t.protocolNum = s.protocolNum ∨ t.protocolNum = 0 ∨
     ∃ T rest d, s.pending = .op T :: rest ∧ decode T = .wr 0x004 d ∧ t.protocolNum = BitVec.ofNat 8 d.toNat)

/-- R27, R26, R33: a sample word changes only by a WR to its address or by `rst`, after which it is unspecified (log 3),
and the build never changes. -/
def Obligations.OnlyWrChangesASample : Prop :=
  ∀ s : State, ∃ t, step s = .next t ∧ t.config = s.config ∧
    ∀ j, t.stored j ≠ s.stored j →
      (∃ rest, s.pending = .rst :: rest) ∨
      ∃ T rest a d, s.pending = .op T :: rest ∧ decode T = .wr a d ∧ j < s.config.bufCap ∧ a.toNat = 0x100 + j ∧
        t.stored j = BitVec.ofNat 16 d.toNat

/-- R162, an inference the spec marks as its own ("[derived: from rule R160]"), in the form the model gives it: a
command carried out whole and then a hardware reset leave what the reset alone leaves. That a reset during a command
is the reset after it is the model's reading (log 8); the count of draws, the model's own (log 5), is set apart. -/
def Obligations.AbandonedCommandLeavesNoTrace : Prop :=
  ∀ (i : Instr) (s : State), i.isCommand = true →
    ∃ t, exec i s = .next t ∧
      { t.hardwareReset with draws := 0 } = { s.hardwareReset with draws := 0 }
end

