-- ==== Sys2Proof/Laws/State.lean ====
section
/-!
SUPPORT. What each shared update of the state leaves in each field: one lemma per field per update, so that no proof
unfolds a record update.
-/

namespace Sys2Proof.Machine

variable (s : State)

/-! ### `ok(r)` -/

@[simp] theorem State.ok_status (r : BitVec 2) : (s.ok r).status = 0 := rfl
@[simp] theorem State.ok_ret (r : BitVec 2) : (s.ok r).ret = r := rfl
@[simp] theorem State.ok_errval (r : BitVec 2) : (s.ok r).errval = 0 := rfl
@[simp] theorem State.ok_protocolNum (r : BitVec 2) : (s.ok r).protocolNum = s.protocolNum := rfl
@[simp] theorem State.ok_value (r : BitVec 2) : (s.ok r).value = s.value := rfl
@[simp] theorem State.ok_address (r : BitVec 2) : (s.ok r).address = s.address := rfl
@[simp] theorem State.ok_bits (r : BitVec 2) : (s.ok r).bits = s.bits := rfl
@[simp] theorem State.ok_offset (r : BitVec 2) : (s.ok r).offset = s.offset := rfl
@[simp] theorem State.ok_used (r : BitVec 2) : (s.ok r).used = s.used := rfl
@[simp] theorem State.ok_ignoreHeader (r : BitVec 2) : (s.ok r).ignoreHeader = s.ignoreHeader := rfl
@[simp] theorem State.ok_len (r : BitVec 2) : (s.ok r).len = s.len := rfl
@[simp] theorem State.ok_operands (r : BitVec 2) : (s.ok r).operands = s.operands := rfl
@[simp] theorem State.ok_config (r : BitVec 2) : (s.ok r).config = s.config := rfl
@[simp] theorem State.ok_samples (r : BitVec 2) : (s.ok r).samples = s.samples := rfl
@[simp] theorem State.ok_busRdata (r : BitVec 2) : (s.ok r).busRdata = s.busRdata := rfl
@[simp] theorem State.ok_pending (r : BitVec 2) : (s.ok r).pending = s.pending := rfl
@[simp] theorem State.ok_draws (r : BitVec 2) : (s.ok r).draws = s.draws := rfl
@[simp] theorem State.ok_resets (r : BitVec 2) : (s.ok r).resets = s.resets := rfl

/-! ### `raise E` -/

@[simp] theorem State.raise_status (e : CommandError) : (s.raise e).status = e.status := rfl
@[simp] theorem State.raise_ret (e : CommandError) : (s.raise e).ret = e.ret := rfl
@[simp] theorem State.raise_errval (e : CommandError) : (s.raise e).errval = e.errval := rfl
@[simp] theorem State.raise_protocolNum (e : CommandError) : (s.raise e).protocolNum = s.protocolNum := rfl
@[simp] theorem State.raise_value (e : CommandError) : (s.raise e).value = s.value := rfl
@[simp] theorem State.raise_address (e : CommandError) : (s.raise e).address = s.address := rfl
@[simp] theorem State.raise_bits (e : CommandError) : (s.raise e).bits = s.bits := rfl
@[simp] theorem State.raise_offset (e : CommandError) : (s.raise e).offset = s.offset := rfl
@[simp] theorem State.raise_used (e : CommandError) : (s.raise e).used = s.used := rfl
@[simp] theorem State.raise_ignoreHeader (e : CommandError) : (s.raise e).ignoreHeader = s.ignoreHeader := rfl
@[simp] theorem State.raise_len (e : CommandError) : (s.raise e).len = s.len := rfl
@[simp] theorem State.raise_operands (e : CommandError) : (s.raise e).operands = s.operands := rfl
@[simp] theorem State.raise_config (e : CommandError) : (s.raise e).config = s.config := rfl
@[simp] theorem State.raise_samples (e : CommandError) : (s.raise e).samples = s.samples := rfl
@[simp] theorem State.raise_busRdata (e : CommandError) : (s.raise e).busRdata = s.busRdata := rfl
@[simp] theorem State.raise_pending (e : CommandError) : (s.raise e).pending = s.pending := rfl
@[simp] theorem State.raise_draws (e : CommandError) : (s.raise e).draws = s.draws := rfl
@[simp] theorem State.raise_resets (e : CommandError) : (s.raise e).resets = s.resets := rfl

/-! ### the clears of `resetDecoder` -/

@[simp] theorem State.clearResult_status : s.clearResult.status = s.status := rfl
@[simp] theorem State.clearResult_ret : s.clearResult.ret = s.ret := rfl
@[simp] theorem State.clearResult_errval : s.clearResult.errval = s.errval := rfl
@[simp] theorem State.clearResult_protocolNum : s.clearResult.protocolNum = 0 := rfl
@[simp] theorem State.clearResult_value : s.clearResult.value = 0 := rfl
@[simp] theorem State.clearResult_address : s.clearResult.address = 0 := rfl
@[simp] theorem State.clearResult_bits : s.clearResult.bits = 0 := rfl
@[simp] theorem State.clearResult_offset : s.clearResult.offset = s.offset := rfl
@[simp] theorem State.clearResult_used : s.clearResult.used = s.used := rfl
@[simp] theorem State.clearResult_ignoreHeader : s.clearResult.ignoreHeader = s.ignoreHeader := rfl
@[simp] theorem State.clearResult_len : s.clearResult.len = s.len := rfl
@[simp] theorem State.clearResult_operands : s.clearResult.operands = s.operands := rfl
@[simp] theorem State.clearResult_config : s.clearResult.config = s.config := rfl
@[simp] theorem State.clearResult_samples : s.clearResult.samples = s.samples := rfl
@[simp] theorem State.clearResult_busRdata : s.clearResult.busRdata = s.busRdata := rfl
@[simp] theorem State.clearResult_pending : s.clearResult.pending = s.pending := rfl
@[simp] theorem State.clearResult_draws : s.clearResult.draws = s.draws := rfl
@[simp] theorem State.clearResult_resets : s.clearResult.resets = s.resets := rfl

/-! ### `MemWrite` -/

@[simp] theorem State.memWrite_status (i : Nat) (v : Sample) : (s.memWrite i v).status = s.status := rfl
@[simp] theorem State.memWrite_ret (i : Nat) (v : Sample) : (s.memWrite i v).ret = s.ret := rfl
@[simp] theorem State.memWrite_errval (i : Nat) (v : Sample) : (s.memWrite i v).errval = s.errval := rfl
@[simp] theorem State.memWrite_protocolNum (i : Nat) (v : Sample) : (s.memWrite i v).protocolNum = s.protocolNum := rfl
@[simp] theorem State.memWrite_value (i : Nat) (v : Sample) : (s.memWrite i v).value = s.value := rfl
@[simp] theorem State.memWrite_address (i : Nat) (v : Sample) : (s.memWrite i v).address = s.address := rfl
@[simp] theorem State.memWrite_bits (i : Nat) (v : Sample) : (s.memWrite i v).bits = s.bits := rfl
@[simp] theorem State.memWrite_offset (i : Nat) (v : Sample) : (s.memWrite i v).offset = s.offset := rfl
@[simp] theorem State.memWrite_used (i : Nat) (v : Sample) : (s.memWrite i v).used = s.used := rfl
@[simp] theorem State.memWrite_ignoreHeader (i : Nat) (v : Sample) : (s.memWrite i v).ignoreHeader = s.ignoreHeader := rfl
@[simp] theorem State.memWrite_len (i : Nat) (v : Sample) : (s.memWrite i v).len = s.len := rfl
@[simp] theorem State.memWrite_operands (i : Nat) (v : Sample) : (s.memWrite i v).operands = s.operands := rfl
@[simp] theorem State.memWrite_config (i : Nat) (v : Sample) : (s.memWrite i v).config = s.config := rfl
@[simp] theorem State.memWrite_samples (i : Nat) (v : Sample) : (s.memWrite i v).samples = s.samples.write i v := rfl
@[simp] theorem State.memWrite_busRdata (i : Nat) (v : Sample) : (s.memWrite i v).busRdata = s.busRdata := rfl
@[simp] theorem State.memWrite_pending (i : Nat) (v : Sample) : (s.memWrite i v).pending = s.pending := rfl
@[simp] theorem State.memWrite_draws (i : Nat) (v : Sample) : (s.memWrite i v).draws = s.draws := rfl
@[simp] theorem State.memWrite_resets (i : Nat) (v : Sample) : (s.memWrite i v).resets = s.resets := rfl

/-! ### `x[i] <- v` -/

@[simp] theorem State.setOperand_status (i : Fin 6) (v : Sample) : (s.setOperand i v).status = s.status := rfl
@[simp] theorem State.setOperand_ret (i : Fin 6) (v : Sample) : (s.setOperand i v).ret = s.ret := rfl
@[simp] theorem State.setOperand_errval (i : Fin 6) (v : Sample) : (s.setOperand i v).errval = s.errval := rfl
@[simp] theorem State.setOperand_protocolNum (i : Fin 6) (v : Sample) : (s.setOperand i v).protocolNum = s.protocolNum := rfl
@[simp] theorem State.setOperand_value (i : Fin 6) (v : Sample) : (s.setOperand i v).value = s.value := rfl
@[simp] theorem State.setOperand_address (i : Fin 6) (v : Sample) : (s.setOperand i v).address = s.address := rfl
@[simp] theorem State.setOperand_bits (i : Fin 6) (v : Sample) : (s.setOperand i v).bits = s.bits := rfl
@[simp] theorem State.setOperand_offset (i : Fin 6) (v : Sample) : (s.setOperand i v).offset = s.offset := rfl
@[simp] theorem State.setOperand_used (i : Fin 6) (v : Sample) : (s.setOperand i v).used = s.used := rfl
@[simp] theorem State.setOperand_ignoreHeader (i : Fin 6) (v : Sample) : (s.setOperand i v).ignoreHeader = s.ignoreHeader := rfl
@[simp] theorem State.setOperand_len (i : Fin 6) (v : Sample) : (s.setOperand i v).len = s.len := rfl
@[simp] theorem State.setOperand_operands (i : Fin 6) (v : Sample) : (s.setOperand i v).operands = s.operands.set i v := rfl
@[simp] theorem State.setOperand_config (i : Fin 6) (v : Sample) : (s.setOperand i v).config = s.config := rfl
@[simp] theorem State.setOperand_samples (i : Fin 6) (v : Sample) : (s.setOperand i v).samples = s.samples := rfl
@[simp] theorem State.setOperand_busRdata (i : Fin 6) (v : Sample) : (s.setOperand i v).busRdata = s.busRdata := rfl
@[simp] theorem State.setOperand_pending (i : Fin 6) (v : Sample) : (s.setOperand i v).pending = s.pending := rfl
@[simp] theorem State.setOperand_draws (i : Fin 6) (v : Sample) : (s.setOperand i v).draws = s.draws := rfl
@[simp] theorem State.setOperand_resets (i : Fin 6) (v : Sample) : (s.setOperand i v).resets = s.resets := rfl

/-! ### accepting an input -/

@[simp] theorem State.accept_status (rest : List HostInput) : (s.accept rest).status = s.status := rfl
@[simp] theorem State.accept_ret (rest : List HostInput) : (s.accept rest).ret = s.ret := rfl
@[simp] theorem State.accept_errval (rest : List HostInput) : (s.accept rest).errval = s.errval := rfl
@[simp] theorem State.accept_protocolNum (rest : List HostInput) : (s.accept rest).protocolNum = s.protocolNum := rfl
@[simp] theorem State.accept_value (rest : List HostInput) : (s.accept rest).value = s.value := rfl
@[simp] theorem State.accept_address (rest : List HostInput) : (s.accept rest).address = s.address := rfl
@[simp] theorem State.accept_bits (rest : List HostInput) : (s.accept rest).bits = s.bits := rfl
@[simp] theorem State.accept_offset (rest : List HostInput) : (s.accept rest).offset = s.offset := rfl
@[simp] theorem State.accept_used (rest : List HostInput) : (s.accept rest).used = s.used := rfl
@[simp] theorem State.accept_ignoreHeader (rest : List HostInput) : (s.accept rest).ignoreHeader = s.ignoreHeader := rfl
@[simp] theorem State.accept_len (rest : List HostInput) : (s.accept rest).len = s.len := rfl
@[simp] theorem State.accept_operands (rest : List HostInput) : (s.accept rest).operands = s.operands := rfl
@[simp] theorem State.accept_config (rest : List HostInput) : (s.accept rest).config = s.config := rfl
@[simp] theorem State.accept_samples (rest : List HostInput) : (s.accept rest).samples = s.samples := rfl
@[simp] theorem State.accept_busRdata (rest : List HostInput) : (s.accept rest).busRdata = none := rfl
@[simp] theorem State.accept_pending (rest : List HostInput) : (s.accept rest).pending = rest := rfl
@[simp] theorem State.accept_draws (rest : List HostInput) : (s.accept rest).draws = s.draws := rfl
@[simp] theorem State.accept_resets (rest : List HostInput) : (s.accept rest).resets = s.resets := rfl

/-! ### hardware reset -/

@[simp] theorem State.hardwareReset_status : s.hardwareReset.status = 0 := rfl
@[simp] theorem State.hardwareReset_ret : s.hardwareReset.ret = 0 := rfl
@[simp] theorem State.hardwareReset_errval : s.hardwareReset.errval = 0 := rfl
@[simp] theorem State.hardwareReset_protocolNum : s.hardwareReset.protocolNum = 0 := rfl
@[simp] theorem State.hardwareReset_value : s.hardwareReset.value = 0 := rfl
@[simp] theorem State.hardwareReset_address : s.hardwareReset.address = 0 := rfl
@[simp] theorem State.hardwareReset_bits : s.hardwareReset.bits = 0 := rfl
@[simp] theorem State.hardwareReset_offset : s.hardwareReset.offset = 0 := rfl
@[simp] theorem State.hardwareReset_used : s.hardwareReset.used = 0 := rfl
@[simp] theorem State.hardwareReset_ignoreHeader : s.hardwareReset.ignoreHeader = 0 := rfl
@[simp] theorem State.hardwareReset_len : s.hardwareReset.len = 0 := rfl
@[simp] theorem State.hardwareReset_operands : s.hardwareReset.operands = #v[0, 0, 0, 0, 0, 0] := rfl
@[simp] theorem State.hardwareReset_config : s.hardwareReset.config = s.config := rfl
@[simp] theorem State.hardwareReset_samples : s.hardwareReset.samples = [] := rfl
@[simp] theorem State.hardwareReset_busRdata : s.hardwareReset.busRdata = none := rfl
@[simp] theorem State.hardwareReset_pending : s.hardwareReset.pending = s.pending := rfl
@[simp] theorem State.hardwareReset_draws : s.hardwareReset.draws = s.draws := rfl
@[simp] theorem State.hardwareReset_resets : s.hardwareReset.resets = s.resets + 1 := rfl

/-! ### presenting a bus operation -/

@[simp] theorem State.withFetchWord_status (n w : Nat) : (s.withFetchWord n w).status = s.status := rfl
@[simp] theorem State.withFetchWord_ret (n w : Nat) : (s.withFetchWord n w).ret = s.ret := rfl
@[simp] theorem State.withFetchWord_errval (n w : Nat) : (s.withFetchWord n w).errval = s.errval := rfl
@[simp] theorem State.withFetchWord_protocolNum (n w : Nat) : (s.withFetchWord n w).protocolNum = s.protocolNum := rfl
@[simp] theorem State.withFetchWord_value (n w : Nat) : (s.withFetchWord n w).value = s.value := rfl
@[simp] theorem State.withFetchWord_address (n w : Nat) : (s.withFetchWord n w).address = s.address := rfl
@[simp] theorem State.withFetchWord_bits (n w : Nat) : (s.withFetchWord n w).bits = s.bits := rfl
@[simp] theorem State.withFetchWord_offset (n w : Nat) : (s.withFetchWord n w).offset = s.offset := rfl
@[simp] theorem State.withFetchWord_used (n w : Nat) : (s.withFetchWord n w).used = s.used := rfl
@[simp] theorem State.withFetchWord_ignoreHeader (n w : Nat) : (s.withFetchWord n w).ignoreHeader = s.ignoreHeader := rfl
@[simp] theorem State.withFetchWord_len (n w : Nat) : (s.withFetchWord n w).len = s.len := rfl
@[simp] theorem State.withFetchWord_operands (n w : Nat) : (s.withFetchWord n w).operands = s.operands := rfl
@[simp] theorem State.withFetchWord_config (n w : Nat) : (s.withFetchWord n w).config = s.config := rfl
@[simp] theorem State.withFetchWord_samples (n w : Nat) : (s.withFetchWord n w).samples = s.samples := rfl
@[simp] theorem State.withFetchWord_busRdata (n w : Nat) : (s.withFetchWord n w).busRdata = s.busRdata := rfl
@[simp] theorem State.withFetchWord_pending (n w : Nat) : (s.withFetchWord n w).pending = .op (BitVec.ofNat 42 (w % 2 ^ n)) :: s.pending := rfl
@[simp] theorem State.withFetchWord_draws (n w : Nat) : (s.withFetchWord n w).draws = s.draws := rfl
@[simp] theorem State.withFetchWord_resets (n w : Nat) : (s.withFetchWord n w).resets = s.resets := rfl

end Sys2Proof.Machine
end

