-- ==== Sys2Proof/Laws/Ram.lean ====
section
/-!
SUPPORT. The sample RAM: a read after a write, and what every write keeps.
-/

namespace Sys2Proof.Machine

/-- The words written after a write: the one written, the others as before. -/
theorem SampleRam.read?_write (m : SampleRam) (i j : Nat) (v : Sample) :
    (SampleRam.write m i v).read? j = if j = i then some v else m.read? j := by
  induction m with
  | nil => simp [SampleRam.write, SampleRam.read?]
  | cons c m ih =>
    obtain ⟨k, w⟩ := c
    simp only [SampleRam.write]
    split
    · simp [SampleRam.read?]
    · split
      · subst_vars; simp only [SampleRam.read?]; split <;> rfl
      · simp only [SampleRam.read?, ih]
        split <;> split <;> first | rfl | omega

/-- A write lists no word but the one written and those listed before. -/
theorem SampleRam.mem_write {m : SampleRam} {i : Nat} {v : Sample} {c : Nat × Sample}
    (h : c ∈ SampleRam.write m i v) : c = (i, v) ∨ c ∈ m := by
  induction m with
  | nil => simpa [SampleRam.write] using h
  | cons d m ih =>
    simp only [SampleRam.write] at h
    split at h
    · simpa using h
    · split at h
      · rcases List.mem_cons.1 h with h | h
        · exact .inl h
        · exact .inr (.tail _ h)
      · rcases List.mem_cons.1 h with h | h
        · exact .inr (h ▸ .head _)
        · exact (ih h).imp_right (.tail _)

/-- A write keeps the canonical form. -/
theorem SampleRam.wf_write {m : SampleRam} (i : Nat) (v : Sample) (h : m.wf) : (SampleRam.write m i v).wf := by
  induction m with
  | nil => simp [SampleRam.write, SampleRam.wf]
  | cons d m ih =>
    obtain ⟨k, w⟩ := d
    simp only [SampleRam.wf, List.map_cons, List.pairwise_cons] at h ih ⊢
    simp only [SampleRam.write]
    split
    · simp only [List.map_cons, List.pairwise_cons, List.mem_cons]
      refine ⟨?_, h⟩
      rintro a (rfl | ha)
      · assumption
      · have := h.1 a ha; omega
    · split
      · subst_vars; simpa using h
      · simp only [List.map_cons, List.pairwise_cons]
        refine ⟨fun a ha => ?_, ih h.2⟩
        obtain ⟨c, hc, rfl⟩ := List.mem_map.1 ha
        rcases SampleRam.mem_write hc with rfl | hc
        · show k < i; omega
        · exact h.1 _ (List.mem_map_of_mem hc)

/-- What S[i] holds depends on the words written and on the resets so far only. -/
theorem State.stored_congr {s t : State} (hs : t.samples = s.samples) (hr : t.resets = s.resets) (i : Nat) :
    t.stored i = s.stored i := by
  simp only [State.stored, State.unwrittenSample, hs, hr]

/-- What S[j] holds after `MemWrite(i, 1, v)`. -/
@[simp] theorem State.stored_memWrite (s : State) (i j : Nat) (v : Sample) :
    (s.memWrite i v).stored j = if j = i then v else s.stored j := by
  simp only [State.stored, State.memWrite, SampleRam.read?_write, State.unwrittenSample]; split <;> rfl

/-- Reading operand registers after one is written. -/
@[simp] theorem State.operand_setOperand (s : State) (i j : Fin 6) (v : Sample) :
    (s.setOperand i v).operand j = if j = i then v else s.operand j := by
  simp only [State.operand, State.setOperand, Fin.getElem_fin, Vector.getElem_set, Fin.ext_iff, eq_comm]

/-- A command's read below LEN is the stored word, and changes nothing (R45). -/
theorem State.memRead_below (s : State) {i : Nat} (h : i < s.len.toNat) : s.memRead i = (s.stored i, s) := by
  simp [State.memRead, h]

/-- A command's read changes at most the count of draws. -/
theorem State.memRead_state (s : State) (i : Nat) :
    (s.memRead i).2 = s ∨ (s.memRead i).2 = { s with draws := s.draws + 1 } := by
  unfold State.memRead; split
  · exact .inl rfl
  · exact .inr rfl

end Sys2Proof.Machine
end

