-- ==== Sys2Proof/Laws/Bus.lean ====
section
/-!
SUPPORT. The bus address map: what each address reaches, and everything a read or a write of it can do.
-/

namespace Sys2Proof.Machine

/-- The address of a register (10_state.md R10). -/
def regAddr : Reg → Nat
  | .cmd => 0x000
  | .status => 0x001
  | .ret => 0x002
  | .errval => 0x003
  | .protocolNum => 0x004
  | .value => 0x005
  | .address => 0x006
  | .bits => 0x007
  | .offset => 0x008
  | .used => 0x009
  | .ignoreHeader => 0x00A
  | .len => 0x00B
  | .operand i => 0x010 + i.val
  | .config => 0x01F

/-- Registers lie below the sample region. -/
theorem regAddr_lt (r : Reg) : regAddr r < 0x100 := by
  cases r with
  | operand i => have := i.isLt; simp only [regAddr]; omega
  | _ => decide

/-- A register address reaches its register. -/
theorem target_reg (cap : Nat) {a : BusAddr} (r : Reg) (h : a.toNat = regAddr r) : target cap a = .reg r := by
  have : a = BitVec.ofNat 9 (regAddr r) := by rw [← h]; simp
  subst this
  cases r with
  | operand i => fin_cases i <;> rfl
  | _ => rfl

/-- What an address of the sample region reaches. -/
theorem target_sample_region (cap : Nat) {a : BusAddr} (h : 0x100 ≤ a.toNat) :
    target cap a = if a.toNat - 0x100 < cap then .sample (a.toNat - 0x100) else .unmapped := by
  have : a.getLsbD 8 = true := by
    have := a.isLt
    rw [BitVec.getLsbD, Nat.testBit_eq_decide_div_mod_eq]; simp; omega
  rw [target, if_pos this]

/-- A sample address below BUF_CAP reaches its sample. -/
theorem target_sample (cap : Nat) {a : BusAddr} {i : Nat} (h : a.toNat = 0x100 + i) (hi : i < cap) :
    target cap a = .sample i := by
  rw [target_sample_region _ (by omega), if_pos (by omega), show a.toNat - 0x100 = i by omega]

/-- A sample address at or beyond BUF_CAP reaches nothing (R44). -/
theorem target_beyond (cap : Nat) {a : BusAddr} (h : 0x100 + cap ≤ a.toNat) : target cap a = .unmapped := by
  rw [target_sample_region _ (by omega), if_neg (by omega)]

/-- An address between registers reaches nothing (R44). -/
theorem target_gap (cap : Nat) {a : BusAddr}
    (h : (0x00C ≤ a.toNat ∧ a.toNat ≤ 0x00F) ∨ (0x016 ≤ a.toNat ∧ a.toNat ≤ 0x01E) ∨
      (0x020 ≤ a.toNat ∧ a.toNat ≤ 0x0FF)) :
    target cap a = .unmapped := by
  have h8 : ¬ a.getLsbD 8 = true := by
    rw [BitVec.getLsbD, Nat.testBit_eq_decide_div_mod_eq]; simp; omega
  have hn : registerMap.lookup a = none := by
    rw [List.lookup_eq_none_iff]
    intro p hp
    have keys : ∀ p ∈ registerMap,
        p.1.toNat ≤ 0x00B ∨ (0x010 ≤ p.1.toNat ∧ p.1.toNat ≤ 0x015) ∨ p.1.toNat = 0x01F := by
      simp [registerMap]
    have := keys p hp
    rw [bne_iff_ne]; rintro rfl; omega
  rw [target, if_neg h8, hn]; rfl

/-- What an address reaches, for every address. -/
theorem target_cases (cap : Nat) (a : BusAddr) :
    (∃ r, a.toNat = regAddr r ∧ target cap a = .reg r) ∨
    (∃ i, i < cap ∧ a.toNat = 0x100 + i ∧ target cap a = .sample i) ∨
    (((0x00C ≤ a.toNat ∧ a.toNat ≤ 0x00F) ∨ (0x016 ≤ a.toNat ∧ a.toNat ≤ 0x01E) ∨
      (0x020 ≤ a.toNat ∧ a.toNat ≤ 0x0FF) ∨ 0x100 + cap ≤ a.toNat) ∧ target cap a = .unmapped) := by
  have hlt := a.isLt
  by_cases hs : 0x100 ≤ a.toNat
  · by_cases hc : a.toNat - 0x100 < cap
    · exact .inr (.inl ⟨a.toNat - 0x100, hc, by omega, target_sample cap (by omega) hc⟩)
    · exact .inr (.inr ⟨by omega, target_beyond cap (by omega)⟩)
  · by_cases hg : (0x00C ≤ a.toNat ∧ a.toNat ≤ 0x00F) ∨ (0x016 ≤ a.toNat ∧ a.toNat ≤ 0x01E) ∨
        (0x020 ≤ a.toNat ∧ a.toNat ≤ 0x0FF)
    · exact .inr (.inr ⟨by omega, target_gap cap hg⟩)
    · left
      suffices h : ∃ r, a.toNat = regAddr r from h.imp fun r h => ⟨h, target_reg cap r h⟩
      have h13 : a.toNat ≤ 0x00B ∨ (0x010 ≤ a.toNat ∧ a.toNat ≤ 0x015) ∨ a.toNat = 0x01F := by omega
      rcases h13 with h | h | h
      · generalize a.toNat = n at h
        interval_cases n
        exacts [⟨.cmd, rfl⟩, ⟨.status, rfl⟩, ⟨.ret, rfl⟩, ⟨.errval, rfl⟩, ⟨.protocolNum, rfl⟩, ⟨.value, rfl⟩,
          ⟨.address, rfl⟩, ⟨.bits, rfl⟩, ⟨.offset, rfl⟩, ⟨.used, rfl⟩, ⟨.ignoreHeader, rfl⟩, ⟨.len, rfl⟩]
      · exact ⟨.operand ⟨a.toNat - 0x010, by omega⟩, by simp only [regAddr]; omega⟩
      · exact ⟨.config, h⟩

/-- BUF_CAP is 3 to 255 (R5). -/
theorem bufCap_bounds (b : Config.Build) : 3 ≤ b.bufCap ∧ b.bufCap ≤ 255 := by
  have := b.beyondHeader.isLt; simp only [Config.Build.bufCap]; omega

/-- A concatenation as a sum. -/
theorem toNat_append_add {m n : Nat} (x : BitVec m) (y : BitVec n) : (x ++ y).toNat = x.toNat * 2 ^ n + y.toNat := by
  rw [BitVec.toNat_append, ← Nat.shiftLeft_add_eq_or_of_lt y.isLt, Nat.shiftLeft_eq]

/-- CONFIG as a number (R26). -/
theorem toNat_configWord (b : Config.Build) : (configWord b).toNat =
    b.bufCap * 2 ^ 17 + (policyBit b.policy).toNat * 2^16 + (tolField b).toNat := by
  have hb := bufCap_bounds b
  have h0 : (configWord b).toNat = ((0#7 ++ BitVec.ofNat 8 b.bufCap) ++ (policyBit b.policy ++ tolField b)).toNat := rfl
  rw [h0, toNat_append_add, toNat_append_add, toNat_append_add]
  simp; omega

/-- A write to one register leaves what every other reads as. -/
theorem readReg_writeReg_ne (s : State) (d : BusData) {r r' : Reg} (h : r ≠ r') :
    (s.writeReg d r).readReg r' = s.readReg r' := by
  cases r with
  | operand i =>
    cases r' with
    | operand j =>
      have : j ≠ i := fun e => h (by rw [e])
      simp [State.writeReg, State.readReg, this]
    | _ => rfl
  | len =>
    simp only [State.writeReg, State.writeLen]
    split
    · cases r' <;> first | rfl | exact absurd rfl h
    · rfl
  | _ => cases r' <;> first | rfl | exact absurd rfl h

/-- A register write changes no sample and no build parameter, and is no reset. -/
theorem writeReg_frame (s : State) (d : BusData) (r : Reg) :
    (s.writeReg d r).samples = s.samples ∧ (s.writeReg d r).config = s.config ∧
    (s.writeReg d r).resets = s.resets := by
  cases r with
  | len => simp only [State.writeReg, State.writeLen]; split <;> exact ⟨rfl, rfl, rfl⟩
  | _ => exact ⟨rfl, rfl, rfl⟩

/-- A WR changes no build parameter. -/
theorem busWrite_config (s : State) (a : BusAddr) (d : BusData) : (s.busWrite a d).config = s.config := by
  simp only [State.busWrite]; split
  · exact (writeReg_frame _ _ _).2.1
  · rfl
  · rfl

/-- A WR leaves what every other address reads as. -/
theorem busRead_busWrite_ne (s : State) {a b : BusAddr} (d : BusData) (h : b ≠ a) :
    (s.busWrite a d).busRead b = s.busRead b := by
  have hne : b.toNat ≠ a.toNat := fun e => h (BitVec.eq_of_toNat_eq e)
  rw [State.busRead, busWrite_config, State.busRead]
  rcases target_cases s.config.bufCap b with ⟨r', hb, tb⟩ | ⟨j, hj, hb, tb⟩ | ⟨-, tb⟩ <;> rw [tb]
  · rcases target_cases s.config.bufCap a with ⟨r, ha, ta⟩ | ⟨i, hi, ha, ta⟩ | ⟨-, ta⟩ <;>
      simp only [State.busWrite, ta]
    · exact readReg_writeReg_ne _ _ (by rintro rfl; omega)
    · rfl
  · rcases target_cases s.config.bufCap a with ⟨r, ha, ta⟩ | ⟨i, hi, ha, ta⟩ | ⟨-, ta⟩ <;>
      simp only [State.busWrite, ta]
    · exact congrArg _ (State.stored_congr (writeReg_frame _ _ _).1 (writeReg_frame _ _ _).2.2 _)
    · rw [State.stored_memWrite, if_neg (by omega)]

/-- Everything a WR can do: write the register or the sample its address names, or nothing. -/
theorem busWrite_cases (s : State) (a : BusAddr) (d : BusData) :
    (∃ r, a.toNat = regAddr r ∧ s.busWrite a d = s.writeReg d r) ∨
    (∃ i, i < s.config.bufCap ∧ a.toNat = 0x100 + i ∧ s.busWrite a d = s.memWrite i (d.setWidth 16)) ∨
    s.busWrite a d = s := by
  rcases target_cases s.config.bufCap a with ⟨r, h, t⟩ | ⟨i, hi, h, t⟩ | ⟨-, t⟩ <;>
    simp only [State.busWrite, t]
  · exact .inl ⟨r, h, rfl⟩
  · exact .inr (.inl ⟨i, hi, h, rfl⟩)
  · simp

/-- Storing the low bits and zero-extending them (R43). -/
theorem setWidth_ofNat (w : Nat) (d : BusData) : (d.setWidth w).setWidth 32 = BitVec.ofNat 32 (d.toNat % 2 ^ w) := by
  apply BitVec.eq_of_toNat_eq; simp

end Sys2Proof.Machine
end

