-- ==== Sys2Proof/Laws/Decode.lean ====
section
/-!
SUPPORT. The fields of a bus operation, what the decoder gives, and which words a row of the opcode table selects.
-/

namespace Sys2Proof

/-- Each bit of `{we, addr, wdata}`. -/
theorem getLsbD_busWord (w : Bool) (a : BusAddr) (d : BusData) (i : Nat) :
    (busWord w a d).getLsbD i =
      if i < 32 then d.getLsbD i else if i < 41 then a.getLsbD (i - 32) else (decide (i = 41) && w) := by
  have h : (busWord w a d).getLsbD i = if i < 32 then d.getLsbD i else (BitVec.ofBool w ++ a).getLsbD (i - 32) :=
    BitVec.getLsbD_append
  rw [h]; split
  · rfl
  · rw [BitVec.getLsbD_append]
    by_cases h9 : i < 41
    · simp [h9, show i - 32 < 9 by omega]
    · have : (i - 32 - 9 = 0) ↔ i = 41 := by omega
      simp [h9, show ¬ i - 32 < 9 by omega, this]

/-- `we` of `{we, addr, wdata}`. -/
@[simp] theorem weBit_busWord (w a d) : weBit (busWord w a d) = w := by
  rw [weBit, getLsbD_busWord]; simp

/-- `addr` of `{we, addr, wdata}`. -/
@[simp] theorem addrField_busWord (w a d) : addrField (busWord w a d) = a := by
  apply BitVec.eq_of_getLsbD_eq; intro i hi
  rw [addrField, BitVec.getLsbD_extractLsb', getLsbD_busWord]
  simp [hi, show 32 + i < 41 by omega]

/-- `wdata` of `{we, addr, wdata}`. -/
@[simp] theorem wdataField_busWord (w a d) : wdataField (busWord w a d) = d := by
  apply BitVec.eq_of_getLsbD_eq; intro i hi
  rw [wdataField, BitVec.getLsbD_extractLsb', getLsbD_busWord]
  simp [hi]

/-- The command code of `{we, addr, wdata}`. -/
@[simp] theorem codeField_busWord (w a d) : codeField (busWord w a d) = d.setWidth 8 := by
  apply BitVec.eq_of_getLsbD_eq; intro i hi
  rw [codeField, BitVec.getLsbD_extractLsb', getLsbD_busWord]
  simp [hi, show i < 32 by omega]

/-- A bus operation is its three fields. -/
theorem busWord_fields (T : BusWord) : busWord (weBit T) (addrField T) (wdataField T) = T := by
  apply BitVec.eq_of_getLsbD_eq; intro i hi
  rw [getLsbD_busWord]
  split
  · simp [wdataField, *]
  · split
    · simp [addrField, show i - 32 < 9 by omega, show 32 + (i - 32) = i by omega]
    · obtain rfl : i = 41 := by omega
      simp [weBit]

/-- AND of two bus operations, field by field. -/
theorem busWord_and (w w' : Bool) (a a' : BusAddr) (d d' : BusData) :
    busWord w a d &&& busWord w' a' d' = busWord (w && w') (a &&& a') (d &&& d') := by
  apply BitVec.eq_of_getLsbD_eq; intro i hi
  rw [BitVec.getLsbD_and, getLsbD_busWord, getLsbD_busWord, getLsbD_busWord]
  split
  · simp
  · split
    · simp
    · obtain rfl : i = 41 := by omega
      simp

/-- Two bus operations are equal when their fields are. -/
theorem busWord_inj {w w' : Bool} {a a' : BusAddr} {d d' : BusData} :
    busWord w a d = busWord w' a' d' ↔ w = w' ∧ a = a' ∧ d = d' := by
  constructor
  · intro h
    exact ⟨by simpa using congrArg weBit h, by simpa using congrArg addrField h,
      by simpa using congrArg wdataField h⟩
  · rintro ⟨rfl, rfl, rfl⟩; rfl

/-- The command code is the low byte of `wdata`. -/
theorem codeField_eq (T) : codeField T = (wdataField T).setWidth 8 := by
  conv_lhs => rw [← busWord_fields T]
  simp

/-- The fields of a bus operation as numbers. -/
theorem toNat_fields (T : BusWord) :
    (addrField T).toNat = T.toNat / 2 ^ 32 % 2 ^ 9 ∧ (codeField T).toNat = T.toNat % 2 ^ 8 ∧
    weBit T = decide (2 ^ 41 ≤ T.toNat) := by
  refine ⟨?_, ?_, ?_⟩
  · simp [addrField, Nat.shiftRight_eq_div_pow]
  · simp [codeField]
  · have := T.isLt
    simp only [weBit, BitVec.getLsbD, Nat.testBit_eq_decide_div_mod_eq]
    congr 1; apply propext; omega

/-- A code outside 1 to 4 names no command (R68). -/
theorem decodeCommand_illegal {c : BitVec 8} (h : c.toNat = 0 ∨ 5 ≤ c.toNat) : decodeCommand c = .cmdIllegal c := by
  have h1 : c ≠ 1#8 := by rintro rfl; simp at h
  have h2 : c ≠ 2#8 := by rintro rfl; simp at h
  have h3 : c ≠ 3#8 := by rintro rfl; simp at h
  have h4 : c ≠ 4#8 := by rintro rfl; simp at h
  rw [decodeCommand, if_neg h1, if_neg h2, if_neg h3, if_neg h4]

/-- The command a code names is the one whose row has that code. -/
theorem decodeCommand_cases (c : BitVec 8) :
    (c = 1 ∧ decodeCommand c = .reset) ∨ (c = 2 ∧ decodeCommand c = .matchDuration) ∨
    (c = 3 ∧ decodeCommand c = .decodeGeneric) ∨ (c = 4 ∧ decodeCommand c = .nextLevel) ∨
    ((c.toNat = 0 ∨ 5 ≤ c.toNat) ∧ decodeCommand c = .cmdIllegal c) := by
  by_cases h : c.toNat = 0 ∨ 5 ≤ c.toNat
  · exact .inr (.inr (.inr (.inr ⟨h, decodeCommand_illegal h⟩)))
  · have : c.toNat = 1 ∨ c.toNat = 2 ∨ c.toNat = 3 ∨ c.toNat = 4 := by omega
    rcases this with e | e | e | e
    · obtain rfl : c = 1 := BitVec.eq_of_toNat_eq e; simp [decodeCommand]
    · obtain rfl : c = 2 := BitVec.eq_of_toNat_eq e; simp [decodeCommand]
    · obtain rfl : c = 3 := BitVec.eq_of_toNat_eq e; simp [decodeCommand]
    · obtain rfl : c = 4 := BitVec.eq_of_toNat_eq e; simp [decodeCommand]

/-- What the decoder gives meets the side conditions of R70. -/
theorem decode_wellFormed (T) : (decode T).wellFormed = true := by
  unfold decode
  split
  · rfl
  · split
    · rcases decodeCommand_cases (codeField T) with ⟨_, h⟩ | ⟨_, h⟩ | ⟨_, h⟩ | ⟨_, h⟩ | ⟨hc, h⟩ <;>
        rw [h]
      iterate 4 rfl
      simpa [Instr.wellFormed] using hc
    · simpa [Instr.wellFormed]

/-- Masking `wdata` with 0xFF keeps its low byte. -/
theorem and_lowByte (d : BusData) (c : BitVec 8) : d &&& 0xFF#32 = c.setWidth 32 ↔ d.setWidth 8 = c := by
  constructor
  · intro h
    have := congrArg (BitVec.setWidth 8) h
    rw [BitVec.setWidth_and, show (255#32).setWidth 8 = BitVec.allOnes 8 by decide, BitVec.and_allOnes] at this
    simpa using this
  · rintro rfl
    apply BitVec.eq_of_getLsbD_eq; intro i hi
    have : (255#32).getLsbD i = decide (i < 8) := by
      have : ∀ i : Fin 32, (255#32).getLsbD i = decide (i.val < 8) := by decide
      exact this ⟨i, hi⟩
    rw [BitVec.getLsbD_and, this, BitVec.getLsbD_setWidth, BitVec.getLsbD_setWidth]
    by_cases h8 : i < 8 <;> simp [hi, h8]

/-- The words the RD row selects. -/
theorem selects_rd (T : BusWord) : (T &&& (0x20000000000 : BusWord) == 0x00000000000) = !weBit T := by
  rw [show (0x20000000000 : BusWord) = busWord true 0 0 by decide, show (0 : BusWord) = busWord false 0 0 by decide]
  conv_lhs => rw [← busWord_fields T, busWord_and]
  rw [Bool.eq_iff_iff, beq_iff_eq, busWord_inj]; simp

/-- The words the WR row selects. -/
theorem selects_wr (T : BusWord) : (T &&& (0x20000000000 : BusWord) == 0x20000000000) = weBit T := by
  rw [show (0x20000000000 : BusWord) = busWord true 0 0 by decide]
  conv_lhs => rw [← busWord_fields T, busWord_and]
  rw [Bool.eq_iff_iff, beq_iff_eq, busWord_inj]; simp

/-- The words the CMD_ILLEGAL row selects. -/
theorem selects_cmd (T : BusWord) :
    (T &&& (0x3FF00000000 : BusWord) == 0x20000000000) = (weBit T && addrField T == 0) := by
  rw [show (0x3FF00000000 : BusWord) = busWord true 0x1FF 0 by decide,
    show (0x20000000000 : BusWord) = busWord true 0 0 by decide]
  conv_lhs => rw [← busWord_fields T, busWord_and]
  have : addrField T &&& 511#9 = addrField T := BitVec.and_allOnes
  rw [Bool.eq_iff_iff, beq_iff_eq, busWord_inj]; simp [this]

/-- The words the row of a command code selects. -/
theorem selects_code (T : BusWord) (c : BitVec 8) (m : BusWord) (hm : m = busWord true 0 (c.setWidth 32)) :
    (T &&& (0x3FF000000FF : BusWord) == m) = (weBit T && addrField T == 0 && codeField T == c) := by
  subst hm
  rw [show (0x3FF000000FF : BusWord) = busWord true 0x1FF 0xFF by decide]
  conv_lhs => rw [← busWord_fields T, busWord_and]
  have : addrField T &&& 511#9 = addrField T := BitVec.and_allOnes
  rw [Bool.eq_iff_iff, beq_iff_eq, busWord_inj, codeField_eq]
  have h2 := and_lowByte (wdataField T) c
  simp [this, h2, and_assoc]

end Sys2Proof
end

