-- ==== Sys2Proof/Laws/DecodeGeneric.lean ====
section
/-!
SUPPORT. DECODE_GENERIC: how each of its steps can end, on every state.
-/

namespace Sys2Proof.Machine

/-! ### The loop of step 6 -/

/-- At its bound the loop ends, whatever fuel is left; with fuel LEN it never ends for want of fuel (`decodeLoop_cases`). -/
@[simp] theorem decodeLoop_fuel (s : State) (fuel off : Nat) (acc : BitVec 64) (h : ¬ off + 1 < s.len.toNat) :
    decodeLoop s fuel off acc = .complete off acc := by
  cases fuel with
  | zero => rfl
  | succ n => rw [decodeLoop, if_neg h]

/-- A space that passes stands for a bit (R105). -/
theorem spaceBit_some {s : State} {j : Nat} (h : s.SpacePasses j) : s.spaceBit (4 + 2 * j) = some (s.isOne j) := by
  unfold State.spaceBit
  unfold State.SpacePasses at h
  cases h1 : s.isOne j with
  | true => rw [State.isOne] at h1; rw [if_pos h1]
  | false =>
    rw [h1] at h
    rw [State.isOne] at h1; rw [if_neg (by simp [h1]), if_pos (by simpa using h)]

/-- A space that fails stands for none (R105). -/
theorem spaceBit_none {s : State} {j : Nat} (h : ¬ s.SpacePasses j) : s.spaceBit (4 + 2 * j) = none := by
  unfold State.spaceBit
  unfold State.SpacePasses State.isOne at h
  rw [not_or] at h
  rw [if_neg h.1, if_neg h.2]

/-- The pairs lie within LEN. -/
theorem pairCount_bound (s : State) : 2 * s.pairCount + 3 ≤ s.len.toNat ∨ s.pairCount = 0 := by
  unfold State.pairCount; omega

/-- There are at most 126 pairs. -/
theorem pairCount_le (s : State) : s.pairCount ≤ 126 := by
  have := s.len.isLt; unfold State.pairCount; omega

/-- The accumulator after the first `k` pairs. -/
def accAfter (b : Nat → Bool) : Nat → BitVec 64
  | 0 => 0
  | k + 1 => appendBit (accAfter b k) (b k)

/-- The loop past `k` pairs that pass. -/
theorem decodeLoop_pairs (s : State) (k : Nat) : ∀ fuel, k ≤ fuel → 3 + 2 * k ≤ s.len.toNat ∨ k = 0 → s.PairsPass k →
    decodeLoop s fuel 3 0 = decodeLoop s (fuel - k) (3 + 2 * k) (accAfter s.isOne k) := by
  induction k with
  | zero => intros; rfl
  | succ k ih =>
    intro fuel hf hl hp
    rw [ih fuel (by omega) (by omega) (fun j hj => hp j (by omega))]
    obtain ⟨hm, hs⟩ := hp k (by omega)
    obtain ⟨n, hn⟩ : ∃ n, fuel - k = n + 1 := ⟨fuel - k - 1, by omega⟩
    rw [hn, decodeLoop, if_pos (by omega), if_pos (show s.fits (s.stored (3 + 2 * k)) s.markData = true from hm)]
    have := spaceBit_some hs
    rw [show 3 + 2 * k + 1 = 4 + 2 * k by omega, this]
    simp only
    rw [show fuel - (k + 1) = n by omega]
    rfl

/-- The loop at the first mark that fails (R104). -/
theorem decodeLoop_mark_fails (s : State) (k : Nat) (hk : k < s.pairCount) (hp : s.PairsPass k)
    (hm : ¬ s.MarkPasses k) :
    decodeLoop s s.len.toNat 3 0 = .failed (.dataMark s.markData) (3 + 2 * k) := by
  unfold State.pairCount at hk
  rw [decodeLoop_pairs s k _ (by omega) (by omega) hp]
  obtain ⟨n, hn⟩ : ∃ n, s.len.toNat - k = n + 1 := ⟨s.len.toNat - k - 1, by omega⟩
  rw [hn, decodeLoop, if_pos (by omega), if_neg (show ¬ s.fits (s.stored (3 + 2 * k)) s.markData = true from hm)]

/-- The loop at the first space that fails (R105). -/
theorem decodeLoop_space_fails (s : State) (k : Nat) (hk : k < s.pairCount) (hp : s.PairsPass k)
    (hm : s.MarkPasses k) (hs : ¬ s.SpacePasses k) :
    decodeLoop s s.len.toNat 3 0 = .failed (.dataSpace s.spaceZero) (4 + 2 * k) := by
  unfold State.pairCount at hk
  rw [decodeLoop_pairs s k _ (by omega) (by omega) hp]
  obtain ⟨n, hn⟩ : ∃ n, s.len.toNat - k = n + 1 := ⟨s.len.toNat - k - 1, by omega⟩
  rw [hn, decodeLoop, if_pos (by omega), if_pos (show s.fits (s.stored (3 + 2 * k)) s.markData = true from hm),
    show 3 + 2 * k + 1 = 4 + 2 * k by omega, spaceBit_none hs]

/-- The loop when every pair passes. -/
theorem decodeLoop_complete (s : State) (hp : s.PairsPass s.pairCount) :
    decodeLoop s s.len.toNat 3 0 = .complete (3 + 2 * s.pairCount) (accAfter s.isOne s.pairCount) := by
  have h := pairCount_bound s
  rw [decodeLoop_pairs s s.pairCount _ (by omega) (by omega) hp, decodeLoop_fuel]
  unfold State.pairCount; omega

/-- How the loop of step 6 ends, on every state. -/
theorem decodeLoop_cases (s : State) :
    (s.PairsPass s.pairCount ∧
      decodeLoop s s.len.toNat 3 0 = .complete (3 + 2 * s.pairCount) (accAfter s.isOne s.pairCount)) ∨
    (∃ k, k < s.pairCount ∧ s.PairsPass k ∧ ¬ s.MarkPasses k ∧
      decodeLoop s s.len.toNat 3 0 = .failed (.dataMark s.markData) (3 + 2 * k)) ∨
    (∃ k, k < s.pairCount ∧ s.PairsPass k ∧ s.MarkPasses k ∧ ¬ s.SpacePasses k ∧
      decodeLoop s s.len.toNat 3 0 = .failed (.dataSpace s.spaceZero) (4 + 2 * k)) := by
  by_cases h : s.PairsPass s.pairCount
  · exact .inl ⟨h, decodeLoop_complete s h⟩
  · have hex : ∃ j, j < s.pairCount ∧ ¬ (s.MarkPasses j ∧ s.SpacePasses j) := by
      simpa [State.PairsPass, -not_and] using h
    classical
    have hk := Nat.find_spec hex
    have hp : s.PairsPass (Nat.find hex) := fun j hj => by
      have := Nat.find_min hex hj
      by_contra hc; exact this ⟨by omega, hc⟩
    by_cases hm : s.MarkPasses (Nat.find hex)
    · have hs : ¬ s.SpacePasses (Nat.find hex) := fun hs => hk.2 ⟨hm, hs⟩
      exact .inr (.inr ⟨_, hk.1, hp, hm, hs, decodeLoop_space_fails s _ hk.1 hp hm hs⟩)
    · exact .inr (.inl ⟨_, hk.1, hp, hm, decodeLoop_mark_fails s _ hk.1 hp hm⟩)

/-- The loop depends on LEN, the operands, the build and the samples of the pairs only. -/
theorem decodeLoop_congr {s t : State} (hl : s.len = t.len) (ho : s.operands = t.operands) (hc : s.config = t.config)
    (hs : ∀ i, 3 ≤ i → i ≤ 2 + 2 * s.pairCount → s.stored i = t.stored i) (fuel : Nat) :
    decodeLoop s fuel 3 0 = decodeLoop t fuel 3 0 := by
  have hb := pairCount_bound s
  have key : ∀ fuel off acc, 3 ≤ off → off % 2 = 1 → decodeLoop s fuel off acc = decodeLoop t fuel off acc := by
    intro fuel
    induction fuel with
    | zero => intros; rfl
    | succ n ih =>
      intro off acc h3 hodd
      simp only [decodeLoop, ← hl]
      split
      · rename_i hlt
        have hk : off + 1 ≤ 2 + 2 * s.pairCount := by unfold State.pairCount; omega
        have f : ∀ a b, s.fits a b = t.fits a b := fun a b => by simp only [State.fits, hc]
        have e1 := hs off h3 (by omega)
        have e2 := hs (off + 1) (by omega) hk
        have hsp : s.spaceBit (off + 1) = t.spaceBit (off + 1) := by
          have so : s.spaceOne = t.spaceOne := by simp only [State.spaceOne, State.operand, ho]
          have sz : s.spaceZero = t.spaceZero := by simp only [State.spaceZero, State.operand, ho]
          simp only [State.spaceBit, f, e2, so, sz]
        have hmd : s.markData = t.markData := by simp only [State.markData, State.operand, ho]
        have hsz : s.spaceZero = t.spaceZero := by simp only [State.spaceZero, State.operand, ho]
        rw [f, e1, hmd, hsp, hsz]
        split
        · split
          · exact ih _ _ (by omega) (by omega)
          · rfl
        · rfl
      · rfl
  exact key fuel 3 0 (by omega) (by omega)

/-! ### The accumulator -/

/-- The number of n + k bits from those of its two parts. -/
theorem bitsNumber_add (b : Nat → Bool) (n k : Nat) :
    bitsNumber b (n + k) = 2 ^ k * bitsNumber b n + bitsNumber (fun j => b (n + j)) k := by
  unfold bitsNumber
  rw [Finset.sum_range_add, Finset.mul_sum]
  congr 1
  · apply Finset.sum_congr rfl; intro j hj
    have := Finset.mem_range.1 hj
    rw [show n + k - 1 - j = (n - 1 - j) + k by omega, pow_add]; ring
  · apply Finset.sum_congr rfl; intro j hj
    have := Finset.mem_range.1 hj
    rw [show n + k - 1 - (n + j) = k - 1 - j by omega]

/-- The number of k bits is below 2^k. -/
theorem bitsNumber_lt (b : Nat → Bool) (k : Nat) : bitsNumber b k < 2 ^ k := by
  induction k with
  | zero => simp [bitsNumber]
  | succ k ih =>
    have : bitsNumber b (k + 1) = 2 * bitsNumber b k + (b k).toNat := by
      unfold bitsNumber
      rw [Finset.sum_range_succ, Finset.mul_sum]
      congr 1
      · apply Finset.sum_congr rfl
        intro j hj
        have := Finset.mem_range.1 hj
        rw [show k + 1 - 1 - j = (k - 1 - j) + 1 by omega, pow_succ]; ring
      · simp
    have := Bool.toNat_lt (b k)
    rw [pow_succ]; omega

/-- The accumulator is the number of the bits, modulo 2^64 (R106). -/
theorem accAfter_eq (b : Nat → Bool) (k : Nat) : accAfter b k = BitVec.ofNat 64 (bitsNumber b k) := by
  induction k with
  | zero => rfl
  | succ k ih =>
    have : bitsNumber b (k + 1) = 2 * bitsNumber b k + (b k).toNat := by
      unfold bitsNumber
      rw [Finset.sum_range_succ, Finset.mul_sum]
      congr 1
      · apply Finset.sum_congr rfl
        intro j hj
        have := Finset.mem_range.1 hj
        rw [show k + 1 - 1 - j = (k - 1 - j) + 1 by omega, pow_succ]; ring
      · simp
    rw [accAfter, appendBit, ih, this]
    apply BitVec.eq_of_toNat_eq
    cases b k <;> simp [Nat.add_mod, Nat.mul_mod]

/-- The two parts step 8 delivers (R109). -/
theorem bitsNumber_mod (n : Nat) : (BitVec.ofNat 64 n).setWidth 32 = BitVec.ofNat 32 (n % 2^64) ∧
    (BitVec.ofNat 64 n).extractLsb' 32 16 = BitVec.ofNat 16 (n % 2^64 / 2^32) := by
  constructor
  · apply BitVec.eq_of_toNat_eq; simp
  · apply BitVec.eq_of_toNat_eq; simp [Nat.shiftRight_eq_div_pow]

/-! ### Steps 2 to 8 -/

/-- Step 2 goes on (R107). -/
theorem checkLength_pass {s : State} (h : s.LengthPasses) : s.checkLength = s.checkHeaderMark := by
  unfold State.checkLength State.LengthPasses at *
  rw [if_neg]
  rintro ⟨h0, h1⟩
  rcases h with h | h
  · exact h0 h
  · apply h1; apply BitVec.eq_of_toNat_eq; rw [h]; simp; have := s.len.isLt; omega

/-- Step 2 ends in RawCountError (R107). -/
theorem checkLength_fail {s : State} (h : ¬ s.LengthPasses) : s.checkLength = s.raise .rawCount := by
  unfold State.checkLength State.LengthPasses at *
  rw [not_or] at h
  rw [if_pos]
  refine ⟨h.1, fun e => h.2 ?_⟩
  rw [← e]; simp; have := s.len.isLt; omega

/-- Step 3 goes on (R102). -/
theorem checkHeaderMark_pass {s : State} (h : s.HeaderMarkPasses) : s.checkHeaderMark = s.checkHeaderSpace := by
  unfold State.checkHeaderMark
  rcases h with h | h | ⟨hl, h⟩
  · rw [if_neg (by simp [h])]
  · rw [if_neg (by simp [h])]
  · simp only [State.memRead_below s hl, h, if_true, ite_self]

/-- Step 3 ends in HeaderMarkError (R102). -/
theorem checkHeaderMark_fail {s : State} (hl : 1 < s.len.toNat) (hi : s.ignoreHeader = 0) (hm : s.headMark ≠ 0)
    (hf : s.fits (s.stored 1) s.headMark = false) : s.checkHeaderMark = s.raise (.headerMark s.headMark) := by
  simp only [State.checkHeaderMark, if_pos (And.intro hi hm), State.memRead_below s hl, hf]; rfl

/-- Step 4 goes on (R103). -/
theorem checkHeaderSpace_pass {s : State} (h : s.HeaderSpacePasses) : s.checkHeaderSpace = s.decodeData := by
  unfold State.checkHeaderSpace
  rcases h with h | ⟨hl, h⟩
  · rw [if_neg (by simp [h])]
  · simp only [State.memRead_below s hl, h, if_true, ite_self]

/-- Step 4 ends in HeaderSpaceError (R103). -/
theorem checkHeaderSpace_fail {s : State} (hl : 2 < s.len.toNat) (hm : s.headSpace ≠ 0)
    (hf : s.fits (s.stored 2) s.headSpace = false) : s.checkHeaderSpace = s.raise (.headerSpace s.headSpace) := by
  simp only [State.checkHeaderSpace, if_pos hm, State.memRead_below s hl, hf]; rfl

/-- Step 3 either goes on, with at most a draw taken, or ends in its error. -/
theorem checkHeaderMark_cases (s : State) : ∃ d,
    (s.checkHeaderMark = { s with draws := d }.checkHeaderSpace) ∨
    (s.ignoreHeader = 0 ∧ s.headMark ≠ 0 ∧ s.checkHeaderMark = { s with draws := d }.raise (.headerMark s.headMark)) := by
  unfold State.checkHeaderMark
  by_cases h : s.ignoreHeader = 0 ∧ s.headMark ≠ 0
  · rw [if_pos h]
    rcases State.memRead_state s 1 with e | e
    · refine ⟨s.draws, ?_⟩
      simp only [e]; split
      · exact .inl rfl
      · exact .inr ⟨h.1, h.2, rfl⟩
    · refine ⟨s.draws + 1, ?_⟩
      simp only [e]; split
      · exact .inl rfl
      · exact .inr ⟨h.1, h.2, rfl⟩
  · rw [if_neg h]; exact ⟨s.draws, .inl rfl⟩

/-- Step 4 either goes on, with at most a draw taken, or ends in its error. -/
theorem checkHeaderSpace_cases (s : State) : ∃ d,
    (s.checkHeaderSpace = { s with draws := d }.decodeData) ∨
    (s.headSpace ≠ 0 ∧ s.checkHeaderSpace = { s with draws := d }.raise (.headerSpace s.headSpace)) := by
  unfold State.checkHeaderSpace
  by_cases h : s.headSpace ≠ 0
  · rw [if_pos h]
    rcases State.memRead_state s 2 with e | e
    · refine ⟨s.draws, ?_⟩
      simp only [e]; split
      · exact .inl rfl
      · exact .inr ⟨h, rfl⟩
    · refine ⟨s.draws + 1, ?_⟩
      simp only [e]; split
      · exact .inl rfl
      · exact .inr ⟨h, rfl⟩
  · rw [if_neg h]; exact ⟨s.draws, .inl rfl⟩

/-- Steps 5 to 8 when every pair passes. -/
theorem decodeData_complete {s : State} (hp : s.PairsPass s.pairCount) :
    s.decodeData = { s with
      status := 0, ret := 0, errval := 0
      offset := BitVec.ofNat 8 (3 + 2 * s.pairCount), bits := BitVec.ofNat 8 s.pairCount
      value := BitVec.ofNat 32 (bitsNumber s.isOne s.pairCount % 2 ^ 64)
      address := BitVec.ofNat 16 (bitsNumber s.isOne s.pairCount % 2 ^ 64 / 2 ^ 32) } := by
  rw [State.decodeData, decodeLoop_complete s hp, accAfter_eq]
  obtain ⟨h1, h2⟩ := bitsNumber_mod (bitsNumber s.isOne s.pairCount)
  simp only [State.finishDecode, State.ok, h1, h2, show (3 + 2 * s.pairCount - 1) / 2 - 1 = s.pairCount by omega]

/-- How steps 5 to 8 end, on every state. -/
theorem decodeData_cases (s : State) :
    (s.PairsPass s.pairCount ∧ s.decodeData = { s with
      status := 0, ret := 0, errval := 0
      offset := BitVec.ofNat 8 (3 + 2 * s.pairCount), bits := BitVec.ofNat 8 s.pairCount
      value := BitVec.ofNat 32 (bitsNumber s.isOne s.pairCount % 2 ^ 64)
      address := BitVec.ofNat 16 (bitsNumber s.isOne s.pairCount % 2 ^ 64 / 2 ^ 32) }) ∨
    (∃ k, k < s.pairCount ∧ s.PairsPass k ∧ ¬ s.MarkPasses k ∧ s.decodeData =
      { s with status := 4, ret := 0, errval := s.markData, offset := BitVec.ofNat 8 (3 + 2 * k) }) ∨
    (∃ k, k < s.pairCount ∧ s.PairsPass k ∧ s.MarkPasses k ∧ ¬ s.SpacePasses k ∧ s.decodeData =
      { s with status := 5, ret := 0, errval := s.spaceZero, offset := BitVec.ofNat 8 (4 + 2 * k) }) := by
  rcases decodeLoop_cases s with ⟨hp, -⟩ | ⟨k, hk, hp, hm, h⟩ | ⟨k, hk, hp, hm, hs, h⟩
  · exact .inl ⟨hp, decodeData_complete hp⟩
  · exact .inr (.inl ⟨k, hk, hp, hm, by rw [State.decodeData, h]; rfl⟩)
  · exact .inr (.inr ⟨k, hk, hp, hm, hs, by rw [State.decodeData, h]; rfl⟩)

/-- A command's read, its value and the draws taken. -/
theorem memRead_eq (s : State) (i : Nat) : ∃ v d, s.memRead i = (v, { s with draws := d }) ∧
    (∀ m : SampleRam, ({ s with samples := m } : State).stored i = s.stored i →
      ({ s with samples := m } : State).memRead i = (v, { s with samples := m, draws := d })) ∧
    (∀ t : State, t.len = s.len → t.samples = s.samples → t.resets = s.resets → t.draws = s.draws →
      t.memRead i = (v, { t with draws := d })) := by
  by_cases h : i < s.len.toNat
  · refine ⟨s.stored i, s.draws, s.memRead_below h, fun m hm => ?_, fun t h1 h2 hr h3 => ?_⟩
    · rw [State.memRead_below { s with samples := m } h, hm]
    · have : ({ t with draws := s.draws } : State) = t := by rw [← h3]
      rw [State.memRead_below t (by rw [h1]; exact h), this, State.stored_congr h2 hr]
  · refine ⟨Config.draw s.draws, s.draws + 1, ?_, fun m hm => ?_, fun t h1 h2 hr h3 => ?_⟩
    · simp [State.memRead, h]
    · simp [State.memRead, h]
    · simp [State.memRead, h1, h, h3]

/-- Step 3, given what its read answers. -/
theorem checkHeaderMark_of_read {s s' : State} {v : Sample} (h : s.memRead 1 = (v, s')) : s.checkHeaderMark =
    if s.ignoreHeader = 0 ∧ s.headMark ≠ 0 then
      if s.fits v s.headMark = true then s'.checkHeaderSpace else s'.raise (.headerMark s.headMark)
    else s.checkHeaderSpace := by
  unfold State.checkHeaderMark; rw [h]

/-- Step 4, given what its read answers. -/
theorem checkHeaderSpace_of_read {s s' : State} {v : Sample} (h : s.memRead 2 = (v, s')) : s.checkHeaderSpace =
    if s.headSpace ≠ 0 then if s.fits v s.headSpace = true then s'.decodeData else s'.raise (.headerSpace s.headSpace)
    else s.decodeData := by
  unfold State.checkHeaderSpace; rw [h]

/-- Steps 2 to 4 pass: the command is step 1 and then steps 5 to 8. -/
theorem execDecodeGeneric_passes {s : State} (hl : s.LengthPasses) (hm : s.HeaderMarkPasses)
    (hs : s.HeaderSpacePasses) : execDecodeGeneric s = .next s.clearResult.decodeData := by
  rw [execDecodeGeneric, checkLength_pass (s := s.clearResult) hl, checkHeaderMark_pass (s := s.clearResult) hm,
    checkHeaderSpace_pass (s := s.clearResult) hs]

/-- How DECODE_GENERIC ends, on every state: in one of its five errors, or with the bits; `d` is the count of draws. -/
theorem execDecodeGeneric_cases (s : State) : ∃ t d, execDecodeGeneric s = .next t ∧
    ((¬ s.LengthPasses ∧ t = { s.decodeFailed 1 0 s.offset with draws := d }) ∨
     (s.LengthPasses ∧ s.ignoreHeader = 0 ∧ s.headMark ≠ 0 ∧
       t = { s.decodeFailed 2 s.headMark s.offset with draws := d }) ∨
     (s.LengthPasses ∧ s.headSpace ≠ 0 ∧ t = { s.decodeFailed 3 s.headSpace s.offset with draws := d }) ∨
     (∃ k, s.LengthPasses ∧ k < s.pairCount ∧ s.PairsPass k ∧ ¬ s.MarkPasses k ∧
       t = { s.decodeFailed 4 s.markData (BitVec.ofNat 8 (3 + 2 * k)) with draws := d }) ∨
     (∃ k, s.LengthPasses ∧ k < s.pairCount ∧ s.PairsPass k ∧ s.MarkPasses k ∧ ¬ s.SpacePasses k ∧
       t = { s.decodeFailed 5 s.spaceZero (BitVec.ofNat 8 (4 + 2 * k)) with draws := d }) ∨
     (s.LengthPasses ∧ s.PairsPass s.pairCount ∧
       t = { s.decoded s.pairCount (bitsNumber s.isOne s.pairCount % 2 ^ 64) with draws := d })) := by
  refine ⟨s.clearResult.checkLength, ?_⟩
  by_cases hl : s.LengthPasses
  · rw [checkLength_pass (s := s.clearResult) hl]
    obtain ⟨d1, h1 | ⟨hi, hm, h1⟩⟩ := checkHeaderMark_cases s.clearResult
    · obtain ⟨d2, h2 | ⟨hh, h2⟩⟩ := checkHeaderSpace_cases { s.clearResult with draws := d1 }
      · refine ⟨d2, ?_, ?_⟩
        · show Host.Outcome.next _ = _; rw [checkLength_pass (s := s.clearResult) hl]
        rw [h1, h2]
        rcases decodeData_cases { s.clearResult with draws := d2 } with ⟨hp, h⟩ | ⟨k, hk, hp, hm, h⟩ | ⟨k, hk, hp, hm, hs, h⟩
        · exact .inr (.inr (.inr (.inr (.inr ⟨hl, hp, h⟩))))
        · exact .inr (.inr (.inr (.inl ⟨k, hl, hk, hp, hm, h⟩)))
        · exact .inr (.inr (.inr (.inr (.inl ⟨k, hl, hk, hp, hm, hs, h⟩))))
      · refine ⟨d2, ?_, .inr (.inr (.inl ⟨hl, hh, ?_⟩))⟩
        · show Host.Outcome.next _ = _; rw [checkLength_pass (s := s.clearResult) hl]
        · rw [h1, h2]; rfl
    · refine ⟨d1, ?_, .inr (.inl ⟨hl, hi, hm, ?_⟩)⟩
      · show Host.Outcome.next _ = _; rw [checkLength_pass (s := s.clearResult) hl]
      · rw [h1]; rfl
  · exact ⟨s.draws, rfl, .inl ⟨hl, checkLength_fail (s := s.clearResult) hl⟩⟩

end Sys2Proof.Machine
end

