-- ==== Sys2Proof/Laws/Invariant.lean ====
section
/-!
SUPPORT. What keeps the invariant of IRPM's states: updates that leave its fields, the ways a command ends, and a write
to the sample RAM.
-/

namespace Sys2Proof.Machine

/-- The RAM after reset is in canonical form. -/
theorem State.reset_samples_wf : State.reset.samples.wf := List.Pairwise.nil

/-- The results stay legal where STATUS, RET and ERRVAL stay. -/
theorem State.ResultLegal.frame {s t : State} (h : s.ResultLegal) (h1 : t.status = s.status) (h2 : t.ret = s.ret)
    (h3 : t.errval = s.errval) : t.ResultLegal := by
  obtain ⟨a, b, c, d, e, f⟩ := h
  exact ⟨h1 ▸ a, h2 ▸ b, by rw [h1, h2]; exact c, by rw [h1, h2]; exact d, by rw [h1, h3]; exact e,
    by rw [h1, h3]; exact f⟩

/-- The invariant stays where LEN, the build and the samples stay and the results are legal. -/
theorem State.Inv.frame {s t : State} (h : s.Inv) (h1 : t.len = s.len) (h2 : t.config = s.config)
    (h3 : t.samples = s.samples) (hr : t.ResultLegal) : t.Inv :=
  ⟨by rw [h1, h2]; exact h.lenBound, by rw [h3]; exact h.samplesWf, by rw [h3, h2]; exact h.samplesMapped, hr⟩

/-- `ok(r)` with r = 0 or 1 leaves legal results. -/
theorem State.resultLegal_ok (s : State) (r : BitVec 2) (h : r = 0 ∨ r = 1) : (s.ok r).ResultLegal := by
  rcases h with rfl | rfl <;> constructor <;> simp

/-- An error leaves legal results, a command code being one that R68 calls illegal. -/
theorem State.resultLegal_raise (s : State) (e : CommandError)
    (h : ∀ c, e = .illegalCommand c → c.toNat = 0 ∨ 5 ≤ c.toNat) : (s.raise e).ResultLegal := by
  cases e with
  | illegalCommand c =>
    have := h c rfl
    have hc := c.isLt
    constructor <;> simp [CommandError.status, CommandError.ret, CommandError.errval]
    rcases this with e | e
    · left; apply BitVec.eq_of_toNat_eq; simp [e]
    · right; omega
  | _ => constructor <;> simp [CommandError.status, CommandError.ret, CommandError.errval]

/-- `MemWrite` to a word that exists keeps the invariant. -/
theorem State.Inv.memWrite {s : State} (h : s.Inv) {i : Nat} (hi : i < s.config.bufCap) (v : Sample) :
    (s.memWrite i v).Inv := by
  refine ⟨h.lenBound, SampleRam.wf_write _ _ h.samplesWf, ?_, h.result.frame rfl rfl rfl⟩
  intro c hc
  rcases SampleRam.mem_write hc with rfl | hc
  · exact hi
  · exact h.samplesMapped c hc

/-- A WR to LEN keeps the invariant: it is ignored beyond BUF_CAP (R82). -/
theorem State.Inv.writeLen {s : State} (h : s.Inv) (d : BusData) : (s.writeLen d).Inv := by
  unfold State.writeLen
  split
  · exact ⟨‹_›, h.samplesWf, h.samplesMapped, h.result.frame rfl rfl rfl⟩
  · exact h

end Sys2Proof.Machine
end

