-- ==== Sys2Proof/Laws/Matcher.lean ====
section
/-!
SUPPORT. The Tolerance Matcher without subtraction, for `omega`.
-/

namespace Sys2Proof.Machine

/-- There are two policies (R90). -/
theorem policy_cases (b : Config.Build) : b.policy = .abs ∨ b.policy = .pct := by cases b.policy <;> simp

/-- The window of ABS (R91) over the naturals. -/
theorem toleranceMatch_abs {b : Config.Build} (h : b.policy = .abs) (o e : Nat) :
    toleranceMatch b o e = true ↔ e ≤ o + b.tolAbs.toNat ∧ o ≤ e + b.tolAbs.toNat := by
  simp only [toleranceMatch, h, matchAbs, decide_eq_true_eq]; omega

/-- The window of PCT (R92) over the naturals. -/
theorem toleranceMatch_pct {b : Config.Build} (h : b.policy = .pct) (o e : Nat) :
    toleranceMatch b o e = true ↔
      e * 100 ≤ 100 * o + e * b.tolPct.toNat ∧ 100 * o ≤ e * 100 + e * b.tolPct.toNat := by
  simp only [toleranceMatch, h, matchPct, decide_eq_true_eq]
  rw [mul_sub, mul_add]; omega

end Sys2Proof.Machine
end

