-- ==== Sys2Proof/Laws/NextLevel.lean ====
section
/-!
SUPPORT. NEXT_LEVEL: how each of its steps can end, on every state.
-/

namespace Sys2Proof.Machine

/-- The level is the parity of the cursor (R122). -/
theorem levelOf_eq (o : BitVec 8) : levelOf o = BitVec.ofNat 2 (o.toNat % 2) := by
  have h : o.getLsbD 0 = decide (o.toNat % 2 = 1) := by simp [BitVec.getLsbD, Nat.testBit_zero]
  unfold levelOf; rw [h]
  rcases Nat.mod_two_eq_zero_or_one o.toNat with e | e <;> simp [e]

/-- A level is Space or Mark (R13). -/
theorem levelOf_cases (o : BitVec 8) : levelOf o = 0 ∨ levelOf o = 1 := by
  unfold levelOf; split <;> simp

/-- A classified sample is 1 to 3 unit intervals (R123, R124). -/
theorem avail_range {s : State} {w : Sample} {a : Nat} (h : s.avail w = some a) : 1 ≤ a ∧ a ≤ 3 := by
  unfold State.avail classifyWidth at h
  split at h
  · rename_i x hx
    split at hx
    · simp_all; omega
    · split at hx
      · simp_all; omega
      · split at hx <;> simp_all; omega
  · split at h <;> simp_all; omega

/-- Step 6 moves the cursor or counts (R126). -/
theorem countSubInterval_cases (s : State) (a : Nat) :
    (a ≤ s.used.toNat + 1 ∧ s.countSubInterval a = { s with used := 0, offset := s.offset + 1 }) ∨
    (s.used.toNat + 1 < a ∧ s.countSubInterval a = { s with used := BitVec.ofNat 2 (s.used.toNat + 1) }) := by
  unfold State.countSubInterval
  split
  · exact .inl ⟨by omega, rfl⟩
  · exact .inr ⟨by omega, rfl⟩

/-- Past the end of the buffer (R121). -/
theorem execNextLevel_past {s : State} (h : s.len.toNat ≤ s.offset.toNat) : execNextLevel s = .next (s.ok 0) := by
  rw [execNextLevel, if_pos h]

/-- On a sample of `a` unit intervals (R126, R127). -/
theorem execNextLevel_some {s : State} {a : Nat} (h : s.offset.toNat < s.len.toNat)
    (ha : s.avail (s.stored s.offset.toNat) = some a) :
    execNextLevel s = .next ((s.countSubInterval a).ok (levelOf s.offset)) := by
  simp only [execNextLevel, if_neg (Nat.not_le.2 h), State.readLevel, ha]

/-- On a sample of no countable length (R125). -/
theorem execNextLevel_none {s : State} (h : s.offset.toNat < s.len.toNat)
    (ha : s.avail (s.stored s.offset.toNat) = none) : execNextLevel s = .next (s.raise .phase) := by
  simp only [execNextLevel, if_neg (Nat.not_le.2 h), State.readLevel, ha]

/-- How NEXT_LEVEL ends, on every state. -/
theorem execNextLevel_cases (s : State) :
    (s.len.toNat ≤ s.offset.toNat ∧ execNextLevel s = .next (s.ok 0)) ∨
    (∃ a, s.offset.toNat < s.len.toNat ∧ s.avail (s.stored s.offset.toNat) = some a ∧
      execNextLevel s = .next ((s.countSubInterval a).ok (levelOf s.offset))) ∨
    (s.offset.toNat < s.len.toNat ∧ s.avail (s.stored s.offset.toNat) = none ∧
      execNextLevel s = .next (s.raise .phase)) := by
  by_cases h : s.len.toNat ≤ s.offset.toNat
  · exact .inl ⟨h, execNextLevel_past h⟩
  · have h' := Nat.not_le.1 h
    cases ha : s.avail (s.stored s.offset.toNat) with
    | some a => exact .inr (.inl ⟨a, h', rfl, execNextLevel_some h' ha⟩)
    | none => exact .inr (.inr ⟨h', rfl, execNextLevel_none h' ha⟩)

end Sys2Proof.Machine
end

