-- ==== Sys2Proof/Laws/PerInstr.lean ====
section
/-!
SUPPORT. A law stated of every operation, one lemma per constructor: its encoding is a word of its own row of R70.
-/

namespace Sys2Proof.Laws.RowMatch

/-- Some row of the opcode table carries the operation's mnemonic, selects its encoding and reads its fields back. -/
def Statement (i : Instr) : Prop :=
  i.wellFormed = true →
    ∃ r ∈ opcodeTable, r.mnemonic = i.mnemonic ∧ r.selects (encode i) = true ∧ r.read (encode i) = i

theorem rd (a : BusAddr) : Statement (.rd a) := fun _ =>
  ⟨_, List.mem_cons_self, rfl, (selects_rd _).trans (by simp [encode]), by simp [encode]⟩

theorem reset : Statement .reset := fun _ => ⟨opcodeTable[1], by simp [opcodeTable], rfl, by decide, rfl⟩

theorem matchDuration : Statement .matchDuration := fun _ =>
  ⟨opcodeTable[2], by simp [opcodeTable], rfl, by decide, rfl⟩

theorem decodeGeneric : Statement .decodeGeneric := fun _ =>
  ⟨opcodeTable[3], by simp [opcodeTable], rfl, by decide, rfl⟩

theorem nextLevel : Statement .nextLevel := fun _ => ⟨opcodeTable[4], by simp [opcodeTable], rfl, by decide, rfl⟩

theorem cmdIllegal (c : BitVec 8) : Statement (.cmdIllegal c) := fun _ =>
  ⟨opcodeTable[5], by simp [opcodeTable], rfl, (selects_cmd _).trans (by simp [encode]),
    by simp [opcodeTable, encode]⟩

theorem wr (a : BusAddr) (d : BusData) : Statement (.wr a d) := fun _ =>
  ⟨opcodeTable[6], by simp [opcodeTable], rfl, (selects_wr _).trans (by simp [encode]),
    by simp [opcodeTable, encode]⟩

end Sys2Proof.Laws.RowMatch
end

