-- ==== Sys2Proof/Tests/Slice0.lean ====
section
/-!
SUPPORT. Tests of the model, their expected results from the spec (95_test_vectors.md, and the examples of the rules),
and for each statement with hypotheses a witness that meets them.
-/

namespace Sys2Proof.Tests

open Sys2Proof.Machine

/-! ### Small states -/

/-- TV-ABS of 95_test_vectors.md. -/
def tvAbs : Config.Build := ⟨.abs, 75, 25, 252⟩

/-- TV-PCT of 95_test_vectors.md. -/
def tvPct : Config.Build := ⟨.pct, 75, 25, 252⟩

/-- The build of the table of 2.1: BUF_CAP = 100. -/
def cap100 : Config.Build := ⟨.abs, 75, 25, 97⟩

/-- The state after reset of a build with known parameters. -/
def blank (b : Config.Build) : State := { State.reset with config := b }

/-- `blank` with a buffer loaded and operands written. -/
def loaded (b : Config.Build) (buffer : List Sample) (p0 p1 p2 p3 p4 p5 : Sample) : State :=
  { blank b with
    samples := buffer.zipIdx.map fun c => (c.2, c.1)
    len := BitVec.ofNat 8 buffer.length
    operands := #v[p0, p1, p2, p3, p4, p5] }

/-- The state an operation gives, where it gives one. -/
def after (i : Instr) (s : State) : Option State :=
  match exec i s with
  | .next t => some t
  | .fault _ => none
  | .refused _ => none

/-! ### WellFormed: each check refuses an ill-formed term -/

theorem test_wellFormed_wr_refuses_cmd : (Instr.wr 0x000 5).wellFormed = false := by decide

theorem test_wellFormed_cmdIllegal_refuses_commands :
    (Instr.cmdIllegal 1).wellFormed = false ∧ (Instr.cmdIllegal 4).wellFormed = false := by decide

theorem test_wellFormed_boundaries :
    (Instr.cmdIllegal 0).wellFormed = true ∧ (Instr.cmdIllegal 5).wellFormed = true ∧
    (Instr.cmdIllegal 255).wellFormed = true ∧ (Instr.wr 0x001 0).wellFormed = true ∧
    (Instr.wr 0x1FF 0xFFFFFFFF).wellFormed = true := by decide

/-! ### Decoding: the patterns of 30_encoding.md R70, bit 41 first -/

theorem test_decode_rd :
    decode (0b0#1 ++ 0b101100011#9 ++ 0b11111111111111111111111111111111#32) = .rd 0x163 := by decide

theorem test_decode_reset :
    decode (0b1#1 ++ 0b000000000#9 ++ 0b10110111011110111101111100000001#32) = .reset := by decide

theorem test_decode_matchDuration :
    decode (0b1#1 ++ 0b000000000#9 ++ 0b00000000000000000000000000000010#32) = .matchDuration := by decide

theorem test_decode_decodeGeneric :
    decode (0b1#1 ++ 0b000000000#9 ++ 0b00000000000000000000000000000011#32) = .decodeGeneric := by decide

theorem test_decode_nextLevel :
    decode (0b1#1 ++ 0b000000000#9 ++ 0b00000000000000000000000000000100#32) = .nextLevel := by decide

theorem test_decode_cmdIllegal :
    decode (0b1#1 ++ 0b000000000#9 ++ 0b00000000000000000000000100000101#32) = .cmdIllegal 5 := by decide

theorem test_decode_wr :
    decode (0b1#1 ++ 0b100000011#9 ++ 0b10000000000000000000001000110000#32) = .wr 0x103 0x80000230 := by decide

/-- A number of 43 bits is no bus operation (R61); a bit at or above `nbits` is not read. -/
theorem test_decode_too_wide :
    decodeTableWord 48 0x40000000000 = none ∧ decodeTableWord 42 0x60000000001 = some .reset := by decide

/-! ### One step of each operation -/

/-- B21. -/
theorem test_rd_config : (after (.rd 0x01F) (blank cap100)).map State.busRdata = some (some 0x00C8004B) := by decide

/-- B10: LEN = 0 does not hide a sample from the host. -/
theorem test_rd_sample_beyond_len :
    (after (.rd 0x163) { blank cap100 with samples := [(99, 0x2345)] }).map State.busRdata =
      some (some 0x2345) := by decide

/-- B4, B5, B6. -/
theorem test_wr_len_guard :
    (after (.wr 0x00B 100) (blank cap100)).map State.len = some 100 ∧
    (after (.wr 0x00B 101) { blank cap100 with len := 100 }).map State.len = some 100 ∧
    (after (.wr 0x00B 0x100) { blank cap100 with len := 100 }).map State.len = some 0 := by decide

/-- B2, B3, B7, B22. -/
theorem test_wr_low_bits :
    (after (.wr 0x009 7) (blank cap100)).map State.used = some 3 ∧
    (after (.wr 0x008 0x1FF) (blank cap100)).map State.offset = some 255 ∧
    (after (.wr 0x163 0x12345) (blank cap100)).map State.samples = some [(99, 0x2345)] ∧
    (after (.wr 0x00A 2) (blank cap100)).map State.ignoreHeader = some 0 := by decide

/-- The example of R83. -/
theorem test_reset :
    (after .reset { blank tvAbs with protocolNum := 5, value := 0xA5, bits := 8, offset := 19, used := 1 }) =
      some { blank tvAbs with offset := 19, used := 1 } := by decide

/-- M1 to M15. -/
theorem test_match_abs :
    ([(560, 560), (635, 560), (636, 560), (485, 560), (484, 560), (0, 50), (125, 50), (126, 50), (65535, 65500),
      (65535, 65460), (65535, 65459), (75, 0), (76, 0), (0, 75), (0, 76)].map fun (o, e) =>
        (after .matchDuration (loaded tvAbs [] o e 0 0 0 0)).map State.ret) =
      [1, 1, 0, 1, 0, 1, 1, 0, 1, 1, 0, 1, 0, 1, 0].map some := by decide

/-- M16 to M30. -/
theorem test_match_pct :
    ([(1000, 1000), (750, 1000), (749, 1000), (1250, 1000), (1251, 1000), (750, 1001), (751, 1001), (1251, 1001),
      (1252, 1001), (0, 0), (1, 0), (2, 3), (4, 3), (800, 1000), (1000, 1251)].map fun (o, e) =>
        (after .matchDuration (loaded tvPct [] o e 0 0 0 0)).map State.ret) =
      [1, 1, 0, 1, 0, 0, 1, 1, 0, 1, 0, 0, 0, 1, 1].map some := by decide

/-- The example of R100, from stale state: bits 1 then 0. -/
def frame2 : State :=
  { loaded tvAbs [40000, 9000, 4500, 560, 1690, 560, 560, 560] 8 9000 4500 560 1690 560 with
    offset := 77, used := 2, protocolNum := 9, value := 0xDEAD, bits := 3 }

theorem test_decodeGeneric_two_bits :
    after .decodeGeneric frame2 =
      some { frame2 with protocolNum := 0, value := 2, address := 0, bits := 2, offset := 7 } := by decide

/-- As G19: a bad mark at index 5 and a bad space at index 4 give DataSpaceError at 4. -/
def badPair : State :=
  { loaded tvAbs [40000, 9000, 4500, 560, 1000, 700, 560, 560] 0 9000 4500 560 1690 555 with offset := 77 }

theorem test_decodeGeneric_first_error :
    after .decodeGeneric badPair = some { badPair with status := 5, errval := 555, offset := 4 } := by decide

/-- P32, P33: the multiples of `t` are exact. -/
theorem test_nextLevel_exact_multiples :
    after .nextLevel { loaded tvAbs [0, 65535, 65535] 21845 0 0 0 0 0 with offset := 1 } =
      some { loaded tvAbs [0, 65535, 65535] 21845 0 0 0 0 0 with offset := 1, used := 1, ret := 1 } ∧
    after .nextLevel { loaded tvAbs [0, 14464, 0] 40000 0 0 0 0 0 with offset := 1 } =
      some { loaded tvAbs [0, 14464, 0] 40000 0 0 0 0 0 with offset := 1, status := 6, ret := 2 } := by decide

/-- P18, P20: USED at and above `avail`, and below it. -/
theorem test_nextLevel_used :
    after .nextLevel { loaded tvAbs [30000, 889, 2667, 889] 889 0 0 0 0 0 with offset := 2, used := 3 } =
      some { loaded tvAbs [30000, 889, 2667, 889] 889 0 0 0 0 0 with offset := 3, used := 0 } ∧
    after .nextLevel { loaded tvAbs [30000, 889, 2667, 889] 889 0 0 0 0 0 with offset := 2, used := 1 } =
      some { loaded tvAbs [30000, 889, 2667, 889] 889 0 0 0 0 0 with offset := 2, used := 2 } := by decide

/-- B17. -/
theorem test_cmdIllegal :
    after (.cmdIllegal 5) { blank tvAbs with ret := 1, offset := 255 } =
      some { blank tvAbs with status := 7, errval := 5, offset := 255 } := by decide

/-- A step runs what `withFetchWord` presents: B14, `20400000009`. -/
theorem test_step_runs_fetched_word :
    (match step ((blank tvAbs).withFetchWord 42 0x20400000009) with
      | .next t => some t
      | .fault _ => none
      | .refused _ => none) = some { blank tvAbs with protocolNum := 9 } := by decide

/-! ### Witnesses: states and operands that meet the hypotheses of each statement -/

/-- DecodeOfEncodeIsIdentity: every constructor, the side conditions of R70 at their boundaries. -/
theorem test_witness_decodeOfEncode :
    (Instr.rd 0x1FF).wellFormed = true ∧ Instr.reset.wellFormed = true ∧ Instr.matchDuration.wellFormed = true ∧
    Instr.decodeGeneric.wellFormed = true ∧ Instr.nextLevel.wellFormed = true ∧
    (Instr.cmdIllegal 0).wellFormed = true ∧ (Instr.cmdIllegal 5).wellFormed = true ∧
    (Instr.cmdIllegal 255).wellFormed = true ∧ (Instr.wr 1 0).wellFormed = true ∧
    (Instr.wr 0x1FF 0).wellFormed = true := by decide

/-- StepRunsDecodedOperation, IdleStepHoldsState, HardwareResetGivesTheResetValues, OffsetNeverWraps. -/
theorem test_witness_steps :
    ((blank tvAbs).withFetchWord 42 0x20000000003).pending = .op 0x20000000003 :: [] ∧ (blank tvAbs).pending = [] ∧
    { blank tvAbs with pending := [.rst, .rst], offset := 5 }.pending = .rst :: [.rst] := by decide

/-- What RD of `a` returns. -/
def readAt (a : BusAddr) (s : State) : Option BusData := (after (.rd a) s).bind State.busRdata

/-- A state in which every register reads differently. -/
def marked (b : Config.Build) : State :=
  { loaded b [] 20 21 22 23 24 25 with
    status := 7, ret := 2, errval := 13, protocolNum := 14, value := 15, address := 16, bits := 17, offset := 18
    used := 3, ignoreHeader := 1, len := 19, samples := [(0, 30), (99, 31)] }

/-- RdReturnsTheAddressedWord: every clause, at the boundaries of its range (BUF_CAP = 100). -/
theorem test_witness_rd :
    ([0x000, 0x001, 0x002, 0x003, 0x004, 0x005, 0x006, 0x007, 0x008, 0x009, 0x00A, 0x00B].map
      fun a => readAt a (marked cap100)) = [0, 7, 2, 13, 14, 15, 16, 17, 18, 3, 1, 19].map some ∧
    ([0x00C, 0x00F, 0x010, 0x011, 0x012, 0x013, 0x014, 0x015, 0x016, 0x01E, 0x01F, 0x020, 0x0FF].map
      fun a => readAt a (marked cap100)) = [0, 0, 20, 21, 22, 23, 24, 25, 0, 0, 0x00C8004B, 0, 0].map some ∧
    ([0x100, 0x163, 0x164, 0x1FF].map fun a => readAt a (marked cap100)) = [30, 31, 0, 0].map some ∧
    readAt 0x01F (blank tvPct) = some 0x01FF0019 ∧ cap100.policy = .abs ∧ tvPct.policy = .pct ∧
    cap100.bufCap = 100 ∧ weBit 0x01F00000000 = false := by decide

/-- WrStoresTheLowBits: every clause, at the boundaries of its range (BUF_CAP = 100). -/
theorem test_witness_wr :
    ([0x004, 0x005, 0x006, 0x007, 0x008, 0x009, 0x00A].map
      fun a => (after (.wr a 0xFFFFFFFF) (blank cap100)).bind (readAt a)) =
        [0xFF, 0xFFFFFFFF, 0xFFFF, 0xFF, 0xFF, 3, 1].map some ∧
    ([0x010, 0x011, 0x012, 0x013, 0x014, 0x015, 0x100, 0x163].map
      fun a => (after (.wr a 0x12345) (blank cap100)).bind (readAt a)) = List.replicate 8 (some 0x2345) ∧
    ([0x001, 0x003, 0x00C, 0x00F, 0x016, 0x01F, 0x020, 0x0FF, 0x164, 0x1FF].map
      fun a => after (.wr a 0xFFFFFFFF) (marked cap100)) = List.replicate 10 (some (marked cap100)) ∧
    (100 : BusData).toNat % 256 ≤ cap100.bufCap ∧ cap100.bufCap < (101 : BusData).toNat % 256 ∧
    weBit 0x3FF00000000 = true ∧ addrField 0x3FF00000000 ≠ 0 := by decide

/-- ReadBackAfterWrite: both cases, at boundary addresses. -/
theorem test_witness_readBack :
    ([0x004, 0x005, 0x006, 0x007, 0x008, 0x009, 0x00A, 0x010, 0x015, 0x100, 0x163].map
      fun a => storedWidth cap100.bufCap a) = [8, 32, 16, 8, 8, 2, 1, 16, 16, 16, 16].map some ∧
    storedWidth cap100.bufCap 0x164 = none ∧ (0x00B : BusAddr).toNat = 0x00B ∧
    (0x164 : BusData).toNat % 256 ≤ cap100.bufCap := by decide

/-- ResetClearsDecoderState, MatchReportsTheWindow, IllegalCommandReported: words of each code, at the boundaries. -/
theorem test_witness_commands :
    ([0x20000000000, 0x2FFFFFFFF05, 0x200ABCDEFFF, 0x20000000101, 0x20000000002].map fun T : BusWord =>
      (weBit T, addrField T == 0, codeField T)) =
      [(true, true, 0), (true, false, 5), (true, true, 255), (true, true, 1), (true, true, 2)] ∧
    weBit 0x20000000005 = true ∧ addrField 0x20000000005 = 0 ∧ 5 ≤ (codeField 0x20000000005).toNat ∧
    (blank tvAbs).config.policy = .abs ∧ (blank tvPct).config.policy = .pct := by decide

/-- MatcherLaws: each law's premises, the clauses of law 3 (e = 1001, lo = 751, hi = 1251; e = 1000 for its last) and of
law 7 among them. -/
theorem test_witness_matcher :
    tvAbs.policy = .abs ∧ tvAbs.tolAbs.toNat ≤ 75 ∧ tvAbs.tolAbs.toNat + 1 ≤ 76 ∧ tvPct.policy = .pct ∧
    ⌈((1001 : ℕ) : ℚ) * (100 - tvPct.tolPct.toNat) / 100⌉ = 751 ∧
    ⌊((1001 : ℕ) : ℚ) * (100 + tvPct.tolPct.toNat) / 100⌋ = 1251 ∧
    ([751, 1251, 1252, 750].map fun o => toleranceMatch tvPct o 1001) = [true, true, false, false] ∧
    100 ∣ 1000 * tvPct.tolPct.toNat ∧
    toleranceMatch tvAbs 485 560 = true ∧ toleranceMatch tvAbs 635 560 = true ∧
    (⟨.abs, 0, 25, 0⟩ : Config.Build).tolAbs = 0 ∧ (⟨.pct, 75, 0, 0⟩ : Config.Build).tolPct = 0 := by
  refine ⟨rfl, by decide, by decide, rfl, ?_, ?_, by decide, by decide, by decide, by decide, rfl, rfl⟩
  all_goals
    rw [show tvPct.tolPct.toNat = 25 from rfl]
    norm_num [Int.ceil_eq_iff, Int.floor_eq_iff]

/-- ClippedMarkOrderIsIrrelevant. -/
theorem test_witness_clippedMark :
    98 < 99 ∧ toleranceMatch ⟨.abs, 200, 0, 0⟩ 98 (2 * 99) = true ∧
    toleranceMatch ⟨.abs, 200, 0, 0⟩ 98 (3 * 99) = true ∧
    { loaded tvAbs [30000, 0] 889 0 0 0 0 0 with offset := 1, ignoreHeader := 1 }.clippedFirstMark 0 = true := by
  decide

/-- RawCountErrorIffLengthDiffers: its second clause, one below LEN and beyond 255 (as G10, G11). -/
theorem test_witness_rawCount :
    ([7, 300].map fun n : Sample => (after .decodeGeneric { frame2 with operands := frame2.operands.set 0 n }).map
      fun t => (t.status, t.offset)) = [some (1, 77), some (1, 77)] := by decide

/-- HeaderMarkErrorReported. -/
theorem test_witness_headerMark :
    let s := loaded tvAbs [40000, 8900] 2 9000 4500 560 1690 560
    s.LengthPasses ∧ 1 < s.len.toNat ∧ s.ignoreHeader = 0 ∧ s.headMark ≠ 0 ∧
      s.fits (s.stored 1) s.headMark = false := by
  simp only [State.LengthPasses]; decide

/-- HeaderSpaceErrorReported, with IGNORE_HEADER set (G15). -/
theorem test_witness_headerSpace :
    let s := { loaded tvAbs [40000, 8900, 4600] 0 9000 4500 560 1690 560 with ignoreHeader := 1 }
    s.LengthPasses ∧ s.HeaderMarkPasses ∧ 2 < s.len.toNat ∧ s.headSpace ≠ 0 ∧
      s.fits (s.stored 2) s.headSpace = false := by
  simp only [State.LengthPasses, State.HeaderMarkPasses]; decide

/-- DataMarkErrorReported, in the last pair. -/
theorem test_witness_dataMark :
    let s := loaded tvAbs [40000, 9000, 4500, 560, 1690, 700, 560] 0 9000 4500 560 1690 560
    s.LengthPasses ∧ s.HeaderMarkPasses ∧ s.HeaderSpacePasses ∧ 1 < s.pairCount ∧ s.PairsPass 1 ∧
      ¬ s.MarkPasses 1 := by
  simp only [State.LengthPasses, State.HeaderMarkPasses, State.HeaderSpacePasses, State.PairsPass, State.MarkPasses,
    State.SpacePasses]
  decide

/-- DataSpaceErrorReported, in the first pair. -/
theorem test_witness_dataSpace :
    badPair.LengthPasses ∧ badPair.HeaderMarkPasses ∧ badPair.HeaderSpacePasses ∧ 0 < badPair.pairCount ∧
      badPair.PairsPass 0 ∧ badPair.MarkPasses 0 ∧ ¬ badPair.SpacePasses 0 := by
  simp only [State.LengthPasses, State.HeaderMarkPasses, State.HeaderSpacePasses, State.PairsPass, State.MarkPasses,
    State.SpacePasses]
  decide

/-- SuccessfulDecodeDeliversTheBits, DecodeSucceedsIffEveryCheckPasses. -/
theorem test_witness_success :
    3 ≤ frame2.len.toNat ∧ frame2.LengthPasses ∧ frame2.HeaderMarkPasses ∧ frame2.HeaderSpacePasses ∧
      frame2.PairsPass frame2.pairCount := by
  simp only [State.LengthPasses, State.HeaderMarkPasses, State.HeaderSpacePasses, State.PairsPass, State.MarkPasses,
    State.SpacePasses]
  decide

/-- LongFramesKeepTheLast48Bits: 49 pairs, all of them 0 microseconds long and matching a template of zeros. -/
theorem test_witness_longFrame :
    let s := loaded tvAbs (List.replicate 102 0) 0 0 0 0 0 0
    s.LengthPasses ∧ s.HeaderMarkPasses ∧ s.HeaderSpacePasses ∧ s.PairsPass s.pairCount ∧ 48 < s.pairCount := by
  simp only [State.LengthPasses, State.HeaderMarkPasses, State.HeaderSpacePasses, State.PairsPass, State.MarkPasses,
    State.SpacePasses]
  decide

/-- ShortBuffersGiveNoBits: LEN 0 (both header checks skipped, G26), 1, and 4. -/
theorem test_witness_shortBuffers :
    (let s := loaded tvAbs [] 0 0 0 560 1690 560;
      s.len.toNat ≤ 4 ∧ s.LengthPasses ∧ s.HeaderMarkPasses ∧ s.HeaderSpacePasses) ∧
    (let s := loaded tvAbs [40000] 1 9000 0 560 1690 560;
      s.len.toNat ≤ 4 ∧ s.LengthPasses ∧ ¬ s.HeaderMarkPasses) ∧
    (let s := loaded tvAbs [40000, 9000, 4500, 560] 4 9000 4500 560 1690 560;
      s.len.toNat ≤ 4 ∧ s.LengthPasses ∧ s.HeaderMarkPasses ∧ s.HeaderSpacePasses) := by
  simp only [State.LengthPasses, State.HeaderMarkPasses, State.HeaderSpacePasses]; decide

/-- DecodeRoundTrip, first clause: the 2-bit number 2, as R115 builds its buffer. -/
theorem test_witness_roundTrip :
    let s := frame2
    2 ≤ 48 ∧ 2 < 2 ^ 2 ∧ s.len.toNat = 2 * 2 + 4 ∧ (s.expectedLength = 0 ∨ s.expectedLength.toNat = 2 * 2 + 4) ∧
    s.fits s.spaceZero s.spaceOne = false ∧ s.stored 1 = s.headMark ∧ s.stored 2 = s.headSpace ∧
    (∀ j < 2, s.stored (3 + 2 * j) = s.markData ∧
      s.stored (4 + 2 * j) = if (2 : Nat).testBit (2 - 1 - j) then s.spaceOne else s.spaceZero) ∧
    s.stored (2 * 2 + 3) = s.markData := by decide

/-- DecodeRoundTrip, second clause: G7, at the edges of the windows. -/
theorem test_witness_roundTrip_jitter :
    let s := loaded tvAbs [40000, 9075, 4425, 635, 1615, 485, 635, 560, 485, 600] 0 9000 4500 560 1690 560
    3 ≤ 48 ∧ 4 < 2 ^ 3 ∧ s.len.toNat = 2 * 3 + 4 ∧ s.expectedLength = 0 ∧
    s.fits (s.stored 1) s.headMark = true ∧ s.fits (s.stored 2) s.headSpace = true ∧
    (∀ j < 3, s.fits (s.stored (3 + 2 * j)) s.markData = true ∧
      if (4 : Nat).testBit (3 - 1 - j) then s.fits (s.stored (4 + 2 * j)) s.spaceOne = true
      else s.fits (s.stored (4 + 2 * j)) s.spaceZero = true ∧
        s.fits (s.stored (4 + 2 * j)) s.spaceOne = false) := by decide

/-- DecodeReadsNoOtherSample, NextLevelReadsOnlyTheSampleUnderTheCursor: RAMs that differ in S[0] and the stop mark (as
G18). -/
theorem test_witness_otherSamples :
    let m : SampleRam := SampleRam.write (SampleRam.write frame2.samples 0 0) 7 5000
    m ≠ frame2.samples ∧
    (∀ i < 3 + 2 * frame2.pairCount, 1 ≤ i → { frame2 with samples := m }.stored i = frame2.stored i) ∧
    (let s := { frame2 with offset := 2 };
      s.offset.toNat < s.len.toNat ∧ { s with samples := m }.stored s.offset.toNat = s.stored s.offset.toNat) := by decide

/-- PastTheEndIsSpace: the cursor at LEN, beyond it, and LEN = 0 (P30, P31). -/
theorem test_witness_pastTheEnd :
    ([loaded tvAbs [] 889 0 0 0 0 0, { loaded tvAbs [889, 889] 889 0 0 0 0 0 with offset := 2 },
      { loaded tvAbs [889, 889] 889 0 0 0 0 0 with offset := 7 }].all
        fun s => s.len.toNat ≤ s.offset.toNat) = true := by decide

/-- UnclassifiableWidthIsPhaseError: P1, P13 and P15. -/
theorem test_witness_unclassifiable :
    ([{ loaded tvAbs [30000, 889, 813, 889] 889 0 0 0 0 0 with offset := 2 },
      { loaded tvAbs [30000, 889, 3556, 889] 889 0 0 0 0 0 with offset := 2 },
      { loaded tvAbs [30000, 500, 889, 889] 889 0 0 0 0 0 with offset := 1 }].all fun s =>
        decide (s.offset.toNat < s.len.toNat ∧
          (∀ m < 4, 1 ≤ m →
            toleranceMatch s.config (s.stored s.offset.toNat).toNat (m * (s.operand 0).toNat) = false) ∧
          ¬ (s.ignoreHeader = 1 ∧ s.offset = 1 ∧
            (s.stored s.offset.toNat).toNat < (s.operand 0).toNat))) = true := by decide

/-- LevelReturnedAndCursorMoved: widths of 1, 2 and 3 unit intervals at their window edges (P2, P7, P10), and the
clipped first mark (P17). -/
theorem test_witness_level :
    ([(1, 814), (2, 1853), (3, 2592)].all fun (m, w) =>
      let s := { loaded tvAbs [30000, 889, w, 889] 889 0 0 0 0 0 with offset := 2 }
      decide (s.offset.toNat < s.len.toNat ∧ 1 ≤ m ∧ m ≤ 3 ∧
        toleranceMatch s.config (s.stored s.offset.toNat).toNat (m * (s.operand 0).toNat) = true ∧
        (∀ l < m, 1 ≤ l →
          toleranceMatch s.config (s.stored s.offset.toNat).toNat (l * (s.operand 0).toNat) = false))) = true ∧
    (let s := { loaded tvAbs [30000, 0, 889, 889] 889 0 0 0 0 0 with offset := 1, ignoreHeader := 1 };
      s.offset.toNat < s.len.toNat ∧ s.ignoreHeader = 1 ∧ s.offset = 1 ∧
        (s.stored 1).toNat < (s.operand 0).toNat) := by decide

/-- SampleReturnedOncePerUnitInterval: both clauses, on a sample of 3 unit intervals. -/
theorem test_witness_sampleReturned :
    let s := { loaded tvAbs [30000, 889, 2667, 889] 889 0 0 0 0 0 with offset := 2 }
    s.offset.toNat < s.len.toNat ∧ s.used = 0 ∧ s.avail (s.stored s.offset.toNat) = some 3 ∧
      ({ s with used := 2 }).used.toNat < 3 := by decide

/-- EveryStepKeepsInvariant: LEN at BUF_CAP, the last sample written, and an error of each kind of value. -/
theorem test_witness_inv :
    ({ blank cap100 with len := 100, samples := [(0, 1), (99, 2)] }).Inv ∧
    ({ blank cap100 with status := 7, errval := 255 }).Inv ∧ ({ blank cap100 with status := 6, ret := 2 }).Inv := by
  refine ⟨⟨?_, ?_, ?_, ?_⟩, ⟨?_, ?_, ?_, ?_⟩, ⟨?_, ?_, ?_, ?_⟩⟩
  all_goals first | decide | (constructor <;> decide)

/-- WriteMatrix, ResultsAreNotSticky, AbandonedCommandLeavesNoTrace: operations on both sides of their premises. -/
theorem test_witness_matrix :
    Instr.reset.isCommand = true ∧ Instr.matchDuration.isCommand = true ∧ Instr.decodeGeneric.isCommand = true ∧
    Instr.nextLevel.isCommand = true ∧ (Instr.cmdIllegal 0).isCommand = true ∧ (Instr.rd 0).isCommand = false ∧
    (Instr.wr 8 0).isCommand = false ∧ Instr.matchDuration ≠ .reset ∧ Instr.matchDuration ≠ .decodeGeneric ∧
    Instr.matchDuration ≠ .nextLevel ∧ ∀ a d, Instr.matchDuration ≠ .wr a d := by
  refine ⟨rfl, rfl, rfl, rfl, rfl, rfl, rfl, by decide, by decide, by decide, fun a d h => by cases h⟩

/-- OnlyWrChangesASample: a WR that changes S[99]. -/
theorem test_witness_wrSample :
    let s := { blank cap100 with samples := [(99, 1)] }
    (after (.wr 0x163 2) s).map (fun t => t.stored 99) = some 2 ∧ s.stored 99 = 1 := by decide

end Sys2Proof.Tests
end

/-!
PROOFS. The state (10_state.md): the invariant every step keeps, the write matrix, and how a step can move OFFSET, put an
identifier in PROTOCOL_NUM or change a sample.
-/

namespace Sys2Proof.Machine

/-! ### What a step and an operation can end in -/

/-- A property of the next state, from what it is after each thing the host can present. -/
theorem step_satisfies {s : State} {P : State → Prop} (idle : s.pending = [] → P (s.accept []))
    (reset : ∀ rest, s.pending = .rst :: rest → P (s.accept rest).hardwareReset)
    (operation : ∀ T rest, s.pending = .op T :: rest → ∃ t, exec (decode T) (s.accept rest) = .next t ∧ P t) :
    ∃ t, step s = .next t ∧ P t := by
  unfold step
  split
  next h => exact ⟨_, rfl, idle h⟩
  next rest h => exact ⟨_, rfl, reset rest h⟩
  next T rest h => exact operation T rest h

/-- Every operation completes, ill-formed terms included. -/
theorem exec_completes (i : Instr) (s : State) : ∃ t, exec i s = .next t := by
  cases i <;> exact ⟨_, rfl⟩

/-- An operation completes in one state only. -/
theorem next_unique {o : Host.Outcome State Fault Refusal} {t u : State} (ht : o = .next t) (hu : o = .next u) :
    u = t :=
  Host.Outcome.next.inj (hu.symm.trans ht)

/-- Where a decode that reached step 5 can leave OFFSET: from 3 to LEN, or at 3 when LEN is shorter (R112). -/
def State.DecodeStop (s : State) (o : BitVec 8) : Prop := 3 ≤ o.toNat ∧ o.toNat ≤ max 3 s.len.toNat

/-- A number from 3 to the greater of 3 and LEN is a place a decode can stop. -/
theorem State.decodeStop_ofNat (s : State) {n : Nat} (h3 : 3 ≤ n) (hn : n ≤ max 3 s.len.toNat) :
    s.DecodeStop (BitVec.ofNat 8 n) := by
  have := s.len.isLt
  have : (BitVec.ofNat 8 n).toNat = n := by rw [BitVec.toNat_ofNat]; omega
  unfold State.DecodeStop; omega

/-- The mark and the space of a pair are places a decode can stop. -/
theorem State.decodeStop_pair (s : State) {k : Nat} (hk : k < s.pairCount) :
    s.DecodeStop (BitVec.ofNat 8 (3 + 2 * k)) ∧ s.DecodeStop (BitVec.ofNat 8 (4 + 2 * k)) := by
  have := pairCount_bound s
  exact ⟨s.decodeStop_ofNat (by omega) (by omega), s.decodeStop_ofNat (by omega) (by omega)⟩

/-- The end of the pairs is a place a decode can stop. -/
theorem State.decodeStop_end (s : State) : s.DecodeStop (BitVec.ofNat 8 (3 + 2 * s.pairCount)) := by
  have := pairCount_bound s
  exact s.decodeStop_ofNat (by omega) (by omega)

/-- The states DECODE_GENERIC can complete in: with the bits, or in an error with the result cleared. -/
theorem execDecodeGeneric_next {s t : State} (h : execDecodeGeneric s = .next t) :
    (∃ v a b o d, s.DecodeStop o ∧
      t = { s with protocolNum := 0, value := v, address := a, bits := b, offset := o, draws := d }.ok 0) ∨
    (∃ e o d, (∀ c, e ≠ .illegalCommand c) ∧ (o = s.offset ∨ s.DecodeStop o) ∧
      t = { s.clearResult with offset := o, draws := d }.raise e) := by
  obtain ⟨u, d, hu, hcases⟩ := execDecodeGeneric_cases s
  obtain rfl := next_unique h hu
  rcases hcases with ⟨-, hu⟩ | ⟨-, -, -, hu⟩ | ⟨-, -, hu⟩ | ⟨k, -, hk, -, -, hu⟩ | ⟨k, -, hk, -, -, -, hu⟩ | ⟨-, -, hu⟩
  · exact .inr ⟨.rawCount, _, d, nofun, .inl rfl, hu⟩
  · exact .inr ⟨.headerMark s.headMark, _, d, nofun, .inl rfl, hu⟩
  · exact .inr ⟨.headerSpace s.headSpace, _, d, nofun, .inl rfl, hu⟩
  · exact .inr ⟨.dataMark s.markData, _, d, nofun, .inr (s.decodeStop_pair hk).1, hu⟩
  · exact .inr ⟨.dataSpace s.spaceZero, _, d, nofun, .inr (s.decodeStop_pair hk).2, hu⟩
  · exact .inl ⟨_, _, _, _, d, s.decodeStop_end, hu⟩

/-- The states NEXT_LEVEL can complete in: with a level, the cursor kept or moved by one below LEN, or in the phase
error. -/
theorem execNextLevel_next {s t : State} (h : execNextLevel s = .next t) :
    (∃ u r, (r = 0 ∨ r = 1) ∧ t = { s with used := u }.ok r) ∨
    (∃ r, (r = 0 ∨ r = 1) ∧ s.offset.toNat < s.len.toNat ∧
      t = { s with used := 0, offset := s.offset + 1 }.ok r) ∨
    t = s.raise .phase := by
  rcases execNextLevel_cases s with ⟨-, ht⟩ | ⟨a, hlt, -, ht⟩ | ⟨-, -, ht⟩ <;> obtain rfl := next_unique ht h
  · exact .inl ⟨s.used, 0, .inl rfl, rfl⟩
  · rcases countSubInterval_cases s a with ⟨-, hc⟩ | ⟨-, hc⟩ <;> rw [hc]
    · exact .inr (.inl ⟨_, levelOf_cases _, hlt, rfl⟩)
    · exact .inl ⟨_, _, levelOf_cases _, rfl⟩
  · exact .inr (.inr rfl)

/-! ### What only the host changes (10_state.md R21, R22, R23, R26, R27; 20_memory.md R42) -/

/-- `t` has the registers and the samples of `s` that no command writes. -/
structure State.HostOwnedKept (s t : State) : Prop where
  ignoreHeader : t.ignoreHeader = s.ignoreHeader
  len          : t.len = s.len
  operands     : t.operands = s.operands
  config       : t.config = s.config
  samples      : t.samples = s.samples
  resets       : t.resets = s.resets

/-- Every operation but WR keeps what only the host changes. -/
theorem exec_keeps_hostOwned {i : Instr} {s t : State} (hi : ∀ a d, i ≠ .wr a d) (h : exec i s = .next t) :
    s.HostOwnedKept t := by
  cases i with
  | wr a d => exact absurd rfl (hi a d)
  | decodeGeneric =>
    rcases execDecodeGeneric_next h with ⟨v, a, b, o, d, -, rfl⟩ | ⟨e, o, d, -, -, rfl⟩ <;> constructor <;> rfl
  | nextLevel =>
    rcases execNextLevel_next h with ⟨u, r, -, rfl⟩ | ⟨r, -, -, rfl⟩ | rfl <;> constructor <;> rfl
  | _ => cases h; constructor <;> rfl

/-- An operation is a WR, or keeps what only the host changes. -/
theorem exec_busWrite_or_keeps {i : Instr} {s t : State} (h : exec i s = .next t) :
    (∃ a d, i = .wr a d ∧ t = s.busWrite a d) ∨ s.HostOwnedKept t := by
  by_cases hwr : ∃ a d, i = .wr a d
  · obtain ⟨a, d, rfl⟩ := hwr
    cases h
    exact .inl ⟨a, d, rfl, rfl⟩
  · exact .inr (exec_keeps_hostOwned (fun a d hi => hwr ⟨a, d, hi⟩) h)

/-- What only the host changes determines what every sample holds. -/
theorem State.HostOwnedKept.stored {s t : State} (h : s.HostOwnedKept t) (j : Nat) : t.stored j = s.stored j :=
  State.stored_congr h.samples h.resets j

/-- What only the host changes includes each operand. -/
theorem State.HostOwnedKept.operand {s t : State} (h : s.HostOwnedKept t) (j : Fin 6) : t.operand j = s.operand j := by
  rw [State.operand, h.operands, State.operand]

/-! ### What a WR changes (40_state_ops.md R81) -/

/-- A WR to a register leaves STATUS, RET and ERRVAL. -/
theorem writeReg_results (s : State) (d : BusData) (r : Reg) :
    (s.writeReg d r).status = s.status ∧ (s.writeReg d r).ret = s.ret ∧ (s.writeReg d r).errval = s.errval := by
  cases r with
  | len => simp only [State.writeReg, State.writeLen]; split <;> exact ⟨rfl, rfl, rfl⟩
  | _ => exact ⟨rfl, rfl, rfl⟩

/-- A WR leaves STATUS, RET and ERRVAL. -/
theorem busWrite_results (s : State) (a : BusAddr) (d : BusData) :
    (s.busWrite a d).status = s.status ∧ (s.busWrite a d).ret = s.ret ∧ (s.busWrite a d).errval = s.errval := by
  rcases busWrite_cases s a d with ⟨r, -, h⟩ | ⟨i, -, -, h⟩ | h <;> rw [h]
  · exact writeReg_results s d r
  · exact ⟨rfl, rfl, rfl⟩
  · exact ⟨rfl, rfl, rfl⟩

/-- A WR to a register leaves OFFSET, or stores the low byte in it. -/
theorem writeReg_offset (s : State) (d : BusData) (r : Reg) :
    (s.writeReg d r).offset = s.offset ∨ r = .offset ∧ (s.writeReg d r).offset = BitVec.ofNat 8 d.toNat := by
  cases r with
  | offset => exact .inr ⟨rfl, (BitVec.ofNat_toNat 8 d).symm⟩
  | len => simp only [State.writeReg, State.writeLen]; split <;> exact .inl rfl
  | _ => exact .inl rfl

/-- A WR to a register leaves PROTOCOL_NUM, or stores the low byte in it. -/
theorem writeReg_protocolNum (s : State) (d : BusData) (r : Reg) :
    (s.writeReg d r).protocolNum = s.protocolNum ∨
    r = .protocolNum ∧ (s.writeReg d r).protocolNum = BitVec.ofNat 8 d.toNat := by
  cases r with
  | protocolNum => exact .inr ⟨rfl, (BitVec.ofNat_toNat 8 d).symm⟩
  | len => simp only [State.writeReg, State.writeLen]; split <;> exact .inl rfl
  | _ => exact .inl rfl

/-- A WR leaves OFFSET, or is to its address. -/
theorem busWrite_offset (s : State) (a : BusAddr) (d : BusData) :
    (s.busWrite a d).offset = s.offset ∨ a = 0x008 ∧ (s.busWrite a d).offset = BitVec.ofNat 8 d.toNat := by
  rcases busWrite_cases s a d with ⟨r, ha, h⟩ | ⟨i, -, -, h⟩ | h <;> rw [h]
  · exact (writeReg_offset s d r).imp_right fun ⟨hr, ho⟩ => ⟨BitVec.eq_of_toNat_eq (by rw [ha, hr]; rfl), ho⟩
  · exact .inl rfl
  · exact .inl rfl

/-- A WR leaves PROTOCOL_NUM, or is to its address. -/
theorem busWrite_protocolNum (s : State) (a : BusAddr) (d : BusData) :
    (s.busWrite a d).protocolNum = s.protocolNum ∨
    a = 0x004 ∧ (s.busWrite a d).protocolNum = BitVec.ofNat 8 d.toNat := by
  rcases busWrite_cases s a d with ⟨r, ha, h⟩ | ⟨i, -, -, h⟩ | h <;> rw [h]
  · exact (writeReg_protocolNum s d r).imp_right fun ⟨hr, hp⟩ => ⟨BitVec.eq_of_toNat_eq (by rw [ha, hr]; rfl), hp⟩
  · exact .inl rfl
  · exact .inl rfl

/-- A sample a WR changes is the one its address names. -/
theorem busWrite_stored (s : State) (a : BusAddr) (d : BusData) {j : Nat}
    (hj : (s.busWrite a d).stored j ≠ s.stored j) :
    j < s.config.bufCap ∧ a.toNat = 0x100 + j ∧ (s.busWrite a d).stored j = BitVec.ofNat 16 d.toNat := by
  rcases busWrite_cases s a d with ⟨r, -, h⟩ | ⟨i, hi, ha, h⟩ | h <;> rw [h] at hj ⊢
  · obtain ⟨hsamples, -, hresets⟩ := writeReg_frame s d r
    exact absurd (State.stored_congr hsamples hresets j) hj
  · rw [State.stored_memWrite] at hj ⊢
    obtain rfl : j = i := by by_contra hne; exact hj (if_neg hne)
    exact ⟨hi, ha, by rw [if_pos rfl, BitVec.ofNat_toNat]⟩
  · exact absurd rfl hj

/-! ### The invariant -/

/-- A WR to a register keeps the invariant. -/
theorem State.Inv.writeReg {s : State} (hs : s.Inv) (d : BusData) (r : Reg) : (s.writeReg d r).Inv := by
  cases r with
  | len => exact hs.writeLen d
  | _ => exact hs.frame rfl rfl rfl (hs.result.frame rfl rfl rfl)

/-- A WR keeps the invariant. -/
theorem State.Inv.busWrite {s : State} (hs : s.Inv) (a : BusAddr) (d : BusData) : (s.busWrite a d).Inv := by
  rcases busWrite_cases s a d with ⟨r, -, h⟩ | ⟨i, hi, -, h⟩ | h <;> rw [h]
  · exact hs.writeReg d r
  · exact hs.memWrite hi _
  · exact hs

/-- RET of a Boolean result is 0 or 1 (R13). -/
theorem retOfBool_cases (b : Bool) : retOfBool b = 0 ∨ retOfBool b = 1 := by
  cases b
  · exact .inl rfl
  · exact .inr rfl

/-- Every bus operation keeps STATUS, RET and ERRVAL legal together (R12, R13, R14, R141). -/
theorem exec_keeps_resultLegal {i : Instr} {s t : State} (hi : i.wellFormed = true) (hs : s.ResultLegal)
    (h : exec i s = .next t) : t.ResultLegal := by
  cases i with
  | rd a => cases h; exact hs.frame rfl rfl rfl
  | reset => cases h; exact State.resultLegal_ok _ 0 (.inl rfl)
  | matchDuration => cases h; exact State.resultLegal_ok _ _ (retOfBool_cases _)
  | decodeGeneric =>
    rcases execDecodeGeneric_next h with ⟨v, a, b, o, d, -, rfl⟩ | ⟨e, o, d, he, -, rfl⟩
    · exact State.resultLegal_ok _ 0 (.inl rfl)
    · exact State.resultLegal_raise _ e fun c hc => absurd hc (he c)
  | nextLevel =>
    rcases execNextLevel_next h with ⟨u, r, hr, rfl⟩ | ⟨r, hr, -, rfl⟩ | rfl
    · exact State.resultLegal_ok _ r hr
    · exact State.resultLegal_ok _ r hr
    · exact State.resultLegal_raise _ .phase nofun
  | cmdIllegal c =>
    cases h
    refine State.resultLegal_raise _ _ ?_
    rintro _ ⟨⟩
    simpa [Instr.wellFormed] using hi
  | wr a d =>
    cases h
    obtain ⟨hstatus, hret, herrval⟩ := busWrite_results s a d
    exact hs.frame hstatus hret herrval

/-- Every bus operation keeps the invariant. -/
theorem exec_keeps_inv {i : Instr} {s t : State} (hi : i.wellFormed = true) (hs : s.Inv)
    (h : exec i s = .next t) : t.Inv := by
  rcases exec_busWrite_or_keeps h with ⟨a, d, -, rfl⟩ | kept
  · exact hs.busWrite a d
  · exact hs.frame kept.len kept.config kept.samples (exec_keeps_resultLegal hi hs.result h)

/-- Accepting an input keeps the invariant. -/
theorem State.Inv.accept {s : State} (hs : s.Inv) (rest : List HostInput) : (s.accept rest).Inv :=
  hs.frame rfl rfl rfl (hs.result.frame rfl rfl rfl)

/-- A state with LEN 0, no sample written and the results of a success satisfies the invariant. -/
theorem State.inv_of_cleared {s : State} (hlen : s.len = 0) (hsamples : s.samples = []) (hstatus : s.status = 0)
    (hret : s.ret = 0) (herrval : s.errval = 0) : s.Inv where
  lenBound := by rw [hlen]; exact Nat.zero_le _
  samplesWf := by rw [hsamples]; exact State.reset_samples_wf
  samplesMapped := by rw [hsamples]; exact nofun
  result := (s.resultLegal_ok 0 (.inl rfl)).frame hstatus hret herrval

/-- Settles O36: the invariant holds where LEN, the samples and the results are cleared. -/
theorem invariantAtReset : Obligations.InvariantAtReset :=
  State.inv_of_cleared rfl rfl rfl rfl rfl

/-- Settles O37: accepting an input keeps the invariant, and so does the bus operation decoded, which is well-formed;
`rst` establishes it. -/
theorem everyStepKeepsInvariant : Obligations.EveryStepKeepsInvariant := by
  intro s hs
  refine step_satisfies (fun _ => hs.accept []) (fun rest _ => State.inv_of_cleared rfl rfl rfl rfl rfl) ?_
  intro T rest _
  obtain ⟨t, ht⟩ := exec_completes (decode T) (s.accept rest)
  exact ⟨t, ht, exec_keeps_inv (decode_wellFormed T) (hs.accept rest) ht⟩

/-! ### The registers a step can move -/

/-- How an operation can move OFFSET (R19). -/
theorem exec_offset {i : Instr} {s t : State} (h : exec i s = .next t) :
    t.offset = s.offset ∨
    (∃ d, i = .wr 0x008 d ∧ t.offset = BitVec.ofNat 8 d.toNat) ∨
    (i = .nextLevel ∧ s.offset.toNat < s.len.toNat ∧ t.offset.toNat = s.offset.toNat + 1) ∨
    (i = .decodeGeneric ∧ s.DecodeStop t.offset) := by
  cases i with
  | decodeGeneric =>
    rcases execDecodeGeneric_next h with ⟨v, a, b, o, d, ho, rfl⟩ | ⟨e, o, d, -, ho | ho, rfl⟩
    · exact .inr (.inr (.inr ⟨rfl, ho⟩))
    · exact .inl ho
    · exact .inr (.inr (.inr ⟨rfl, ho⟩))
  | nextLevel =>
    rcases execNextLevel_next h with ⟨u, r, -, rfl⟩ | ⟨r, -, hlt, rfl⟩ | rfl
    · exact .inl rfl
    · have hmoved : (s.offset + 1).toNat = s.offset.toNat + 1 := by
        have := s.len.isLt
        bv_omega
      exact .inr (.inr (.inl ⟨rfl, hlt, hmoved⟩))
    · exact .inl rfl
  | wr a d =>
    cases h
    rcases busWrite_offset s a d with ho | ⟨rfl, ho⟩
    · exact .inl ho
    · exact .inr (.inl ⟨d, rfl, ho⟩)
  | _ => cases h; exact .inl rfl

/-- How an operation can change PROTOCOL_NUM (R15). -/
theorem exec_protocolNum {i : Instr} {s t : State} (h : exec i s = .next t) :
    t.protocolNum = s.protocolNum ∨ t.protocolNum = 0 ∨
    ∃ d, i = .wr 0x004 d ∧ t.protocolNum = BitVec.ofNat 8 d.toNat := by
  cases i with
  | reset => cases h; exact .inr (.inl rfl)
  | decodeGeneric =>
    rcases execDecodeGeneric_next h with ⟨v, a, b, o, d, -, rfl⟩ | ⟨e, o, d, -, -, rfl⟩ <;> exact .inr (.inl rfl)
  | nextLevel =>
    rcases execNextLevel_next h with ⟨u, r, -, rfl⟩ | ⟨r, -, -, rfl⟩ | rfl <;> exact .inl rfl
  | wr a d =>
    cases h
    rcases busWrite_protocolNum s a d with hp | ⟨rfl, hp⟩
    · exact .inl hp
    · exact .inr (.inr ⟨d, rfl, hp⟩)
  | _ => cases h; exact .inl rfl

/-- An operation that changes a sample is a WR to its address. -/
theorem exec_stored {i : Instr} {s t : State} (h : exec i s = .next t) {j : Nat} (hj : t.stored j ≠ s.stored j) :
    ∃ a d, i = .wr a d ∧ j < s.config.bufCap ∧ a.toNat = 0x100 + j ∧ t.stored j = BitVec.ofNat 16 d.toNat := by
  rcases exec_busWrite_or_keeps h with ⟨a, d, hi, rfl⟩ | kept
  · exact ⟨a, d, hi, busWrite_stored s a d hj⟩
  · exact absurd (kept.stored j) hj

/-- No operation changes the build (R26). -/
theorem exec_config {i : Instr} {s t : State} (h : exec i s = .next t) : t.config = s.config := by
  rcases exec_busWrite_or_keeps h with ⟨a, d, -, rfl⟩ | kept
  · exact busWrite_config s a d
  · exact kept.config

/-- Settles O40, from how the operation presented can move OFFSET. -/
theorem offsetNeverWraps : Obligations.OffsetNeverWraps := by
  intro s
  refine step_satisfies (fun _ => .inl rfl) (fun rest hrst => .inr (.inl ⟨rest, hrst, rfl⟩)) ?_
  intro T rest hop
  obtain ⟨t, ht⟩ := exec_completes (decode T) (s.accept rest)
  refine ⟨t, ht, ?_⟩
  rcases exec_offset ht with hkept | hmoved
  · exact .inl hkept
  · exact .inr (.inr ⟨T, rest, hop, hmoved⟩)

/-- Settles O41, from how the operation presented can change PROTOCOL_NUM. -/
theorem onlyTheHostNamesAProtocol : Obligations.OnlyTheHostNamesAProtocol := by
  intro s
  refine step_satisfies (fun _ => .inl rfl) (fun _ _ => .inr (.inl rfl)) ?_
  intro T rest hop
  obtain ⟨t, ht⟩ := exec_completes (decode T) (s.accept rest)
  refine ⟨t, ht, ?_⟩
  rcases exec_protocolNum ht with hkept | hunknown | ⟨d, hwr, hstored⟩
  · exact .inl hkept
  · exact .inr (.inl hunknown)
  · exact .inr (.inr ⟨T, rest, d, hop, hwr, hstored⟩)

/-- Settles O42, from what the operation presented can change of a sample. -/
theorem onlyWrChangesASample : Obligations.OnlyWrChangesASample := by
  intro s
  refine step_satisfies (fun _ => ⟨rfl, fun j hj => absurd (State.stored_congr rfl rfl j) hj⟩)
    (fun rest hrst => ⟨rfl, fun _ _ => .inl ⟨rest, hrst⟩⟩) ?_
  intro T rest hop
  obtain ⟨t, ht⟩ := exec_completes (decode T) (s.accept rest)
  refine ⟨t, ht, (exec_config ht :), fun j hj => ?_⟩
  obtain ⟨a, d, hwr, hmapped⟩ := exec_stored ht hj
  exact .inr ⟨T, rest, a, d, hop, hwr, hmapped⟩

/-! ### The write matrix (10_state.md R34) -/

/-- RD and WR leave STATUS, RET and ERRVAL. -/
theorem exec_keeps_results {i : Instr} {s t : State} (hi : i.isCommand = false) (h : exec i s = .next t) :
    t.status = s.status ∧ t.ret = s.ret ∧ t.errval = s.errval := by
  cases i with
  | rd a => cases h; exact ⟨rfl, rfl, rfl⟩
  | wr a d => cases h; exact busWrite_results s a d
  | _ => cases hi

/-- MATCH, NEXT_LEVEL, illegal commands and RD leave what a decode delivers. -/
theorem exec_keeps_decoded {i : Instr} {s t : State}
    (hi : i ≠ .reset ∧ i ≠ .decodeGeneric ∧ ∀ a d, i ≠ .wr a d) (h : exec i s = .next t) :
    t.protocolNum = s.protocolNum ∧ t.value = s.value ∧ t.address = s.address ∧ t.bits = s.bits := by
  obtain ⟨hreset, hdecode, hwr⟩ := hi
  cases i with
  | reset => exact absurd rfl hreset
  | decodeGeneric => exact absurd rfl hdecode
  | wr a d => exact absurd rfl (hwr a d)
  | nextLevel =>
    rcases execNextLevel_next h with ⟨u, r, -, rfl⟩ | ⟨r, -, -, rfl⟩ | rfl <;> exact ⟨rfl, rfl, rfl, rfl⟩
  | _ => cases h; exact ⟨rfl, rfl, rfl, rfl⟩

/-- Only DECODE_GENERIC, NEXT_LEVEL and WR move OFFSET. -/
theorem exec_keeps_offset {i : Instr} {s t : State}
    (hi : i ≠ .decodeGeneric ∧ i ≠ .nextLevel ∧ ∀ a d, i ≠ .wr a d) (h : exec i s = .next t) :
    t.offset = s.offset := by
  obtain ⟨hdecode, hlevel, hwr⟩ := hi
  rcases exec_offset h with hkept | ⟨d, rfl, -⟩ | ⟨rfl, -, -⟩ | ⟨rfl, -⟩
  · exact hkept
  · exact absurd rfl (hwr _ d)
  · exact absurd rfl hlevel
  · exact absurd rfl hdecode

/-- Only NEXT_LEVEL and WR change USED. -/
theorem exec_keeps_used {i : Instr} {s t : State} (hi : i ≠ .nextLevel ∧ ∀ a d, i ≠ .wr a d)
    (h : exec i s = .next t) : t.used = s.used := by
  obtain ⟨hlevel, hwr⟩ := hi
  cases i with
  | nextLevel => exact absurd rfl hlevel
  | wr a d => exact absurd rfl (hwr a d)
  | decodeGeneric =>
    rcases execDecodeGeneric_next h with ⟨v, a, b, o, d, -, rfl⟩ | ⟨e, o, d, -, -, rfl⟩ <;> rfl
  | _ => cases h; rfl

/-- Settles O38: one lemma per column of R34. -/
theorem writeMatrix : Obligations.WriteMatrix := by
  intro i s
  obtain ⟨t, ht⟩ := exec_completes i s
  refine ⟨t, ht, fun hi => exec_keeps_results hi ht, fun hi => exec_keeps_decoded hi ht,
    fun hi => exec_keeps_offset hi ht, fun hi => exec_keeps_used hi ht, fun hwr => ?_⟩
  have kept := exec_keeps_hostOwned hwr ht
  exact ⟨kept.ignoreHeader, kept.len, kept.operand, kept.stored⟩

/-! ### When DECODE_GENERIC succeeds (42_decode_generic.md R100, R118) -/

/-- Step 2 lets a decode succeed exactly when the length passes. -/
theorem checkLength_succeeds_iff (s : State) :
    s.checkLength.status = 0 ↔ s.LengthPasses ∧ s.checkHeaderMark.status = 0 := by
  by_cases h : s.LengthPasses
  · simp [checkLength_pass h, h]
  · simp [checkLength_fail h, h, CommandError.status]

/-- Step 3, with S[1] below LEN, lets a decode succeed exactly when the header mark passes. -/
theorem checkHeaderMark_succeeds_iff {s : State} (hlen : 1 < s.len.toNat) :
    s.checkHeaderMark.status = 0 ↔ s.HeaderMarkPasses ∧ s.checkHeaderSpace.status = 0 := by
  by_cases h : s.HeaderMarkPasses
  · simp [checkHeaderMark_pass h, h]
  · have hfails := h
    simp only [State.HeaderMarkPasses, hlen, true_and, not_or] at hfails
    obtain ⟨hignore, hmark, hfit⟩ := hfails
    have hchecked : s.ignoreHeader = 0 := (BitVec.eq_zero_or_eq_one _).resolve_right hignore
    simp [checkHeaderMark_fail hlen hchecked hmark (Bool.eq_false_iff.2 hfit), h, CommandError.status]

/-- Step 4, with S[2] below LEN, lets a decode succeed exactly when the header space passes. -/
theorem checkHeaderSpace_succeeds_iff {s : State} (hlen : 2 < s.len.toNat) :
    s.checkHeaderSpace.status = 0 ↔ s.HeaderSpacePasses ∧ s.decodeData.status = 0 := by
  by_cases h : s.HeaderSpacePasses
  · simp [checkHeaderSpace_pass h, h]
  · have hfails := h
    simp only [State.HeaderSpacePasses, hlen, true_and, not_or] at hfails
    obtain ⟨hspace, hfit⟩ := hfails
    simp [checkHeaderSpace_fail hlen hspace (Bool.eq_false_iff.2 hfit), h, CommandError.status]

/-- Steps 5 to 8 succeed exactly when every pair passes. -/
theorem decodeData_succeeds_iff (s : State) : s.decodeData.status = 0 ↔ s.PairsPass s.pairCount := by
  rcases decodeData_cases s with ⟨hp, h⟩ | ⟨k, hk, -, hm, h⟩ | ⟨k, hk, -, -, hs, h⟩
  · simp [h, hp]
  · exact iff_of_false (by simp [h]) fun hp => hm (hp k hk).1
  · exact iff_of_false (by simp [h]) fun hp => hs (hp k hk).2

/-- Settles O25: each step passes on to the next or ends in its error, and the checks do not see step 1's clears. -/
theorem decodeSucceedsIffEveryCheckPasses : Obligations.DecodeSucceedsIffEveryCheckPasses := by
  intro s hlen
  refine ⟨s.clearResult.checkLength, rfl, ?_⟩
  rw [checkLength_succeeds_iff, checkHeaderMark_succeeds_iff (s := s.clearResult) (Nat.lt_of_succ_lt hlen),
    checkHeaderSpace_succeeds_iff (s := s.clearResult) hlen, decodeData_succeeds_iff]
  rfl

/-- Settles O8: the fields of `State.reset`, and a RAM with no word written. -/
theorem resetStateValues : Obligations.ResetStateValues := by
  have operandsZero : ∀ i : Fin 6, State.reset.operand i = 0 := by decide
  exact ⟨rfl, rfl, rfl, rfl, rfl, rfl, rfl, rfl, rfl, rfl, rfl, operandsZero, rfl, fun _ => rfl⟩

end Sys2Proof.Machine

/-!
PROOFS. The bus and the sample RAM (20_memory.md): a step runs the operation presented, a RD gives what the WR before it
stored, and NEXT_LEVEL reads one sample.
-/

namespace Sys2Proof.Machine

/-! ### The operation presented (20_memory.md R50; 30_encoding.md R62) -/

/-- With a bus operation presented, a step is the operation it decodes to. -/
theorem step_of_op {s : State} {T : BusWord} {rest : List HostInput} (h : s.pending = .op T :: rest) :
    step s = exec (decode T) (s.accept rest) := by
  simp only [step, h]

/-- Settles O5: accepting the operation is what the statement writes out. -/
theorem stepRunsDecodedOperation : Obligations.StepRunsDecodedOperation :=
  fun _ _ _ h => step_of_op h

/-! ### Reading back what was written (20_memory.md R43, R50) -/

/-- A WR of `d` to address `a` stores the low `n` bits there: the host can write the `n` bits `a` has, or `a` is that of
LEN and the byte is at most BUF_CAP (R81, R82). -/
def State.Keeps (s : State) (a : Nat) (d : BusData) (n : Nat) : Prop :=
  storedWidth s.config.bufCap a = some n ∨ (a = 0x00B ∧ n = 8 ∧ d.toNat % 256 ≤ s.config.bufCap)

/-- Where a register or a sample of `k` bits is, those are the bits kept. -/
theorem State.Keeps.width {s : State} {a : Nat} {d : BusData} {n k : Nat} (h : s.Keeps a d n)
    (hk : storedWidth s.config.bufCap a = some k) : n = k := by
  rcases h with h | ⟨rfl, -⟩
  · exact Option.some.inj (h.symm.trans hk)
  · cases hk

/-- The width of an operand register. -/
theorem storedWidth_operand (cap : Nat) (i : Fin 6) : storedWidth cap (regAddr (.operand i)) = some 16 := by
  fin_cases i <;> rfl

/-- The width of a sample. -/
theorem storedWidth_sample {cap i : Nat} (hi : i < cap) : storedWidth cap (0x100 + i) = some 16 := by
  simp (disch := omega) only [storedWidth, if_neg, if_pos]

/-- An address that reaches nothing holds nothing the host can write. -/
theorem storedWidth_gap {cap a : Nat}
    (h : (0x00C ≤ a ∧ a ≤ 0x00F) ∨ (0x016 ≤ a ∧ a ≤ 0x01E) ∨ (0x020 ≤ a ∧ a ≤ 0x0FF) ∨ 0x100 + cap ≤ a) :
    storedWidth cap a = none := by
  simp (disch := omega) only [storedWidth, if_neg]

/-- LEN within BUF_CAP is stored (R22). -/
theorem writeLen_len {s : State} {d : BusData} (h : d.toNat % 256 ≤ s.config.bufCap) :
    (s.writeLen d).len = d.setWidth 8 := by
  rw [State.writeLen, if_pos (by simpa using h)]

/-- A register the write is kept in reads as the low bits written. -/
theorem readReg_writeReg_same {s : State} {d : BusData} {r : Reg} {n : Nat} (h : s.Keeps (regAddr r) d n) :
    (s.writeReg d r).readReg r = BitVec.ofNat 32 (d.toNat % 2 ^ n) := by
  cases r with
  | cmd | status | ret | errval | config => rcases h with h | ⟨h, -⟩ <;> cases h
  | protocolNum | address | bits | offset | used | ignoreHeader =>
    rcases h with h | ⟨h, -⟩ <;> cases h
    exact setWidth_ofNat _ d
  | value =>
    rcases h with h | ⟨h, -⟩ <;> cases h
    simpa [State.writeReg, State.readReg] using setWidth_ofNat 32 d
  | operand i =>
    obtain rfl := h.width (storedWidth_operand _ i)
    simpa [State.writeReg, State.readReg] using setWidth_ofNat 16 d
  | len =>
    rcases h with h | ⟨-, rfl, hfits⟩
    · cases h
    · rw [State.readReg, State.writeReg, writeLen_len hfits, setWidth_ofNat]

/-- An address the write is kept at reads as the low bits written. -/
theorem busRead_busWrite_same {s : State} {a : BusAddr} {d : BusData} {n : Nat} (h : s.Keeps a.toNat d n) :
    (s.busWrite a d).busRead a = BitVec.ofNat 32 (d.toNat % 2 ^ n) := by
  rw [State.busRead, busWrite_config, State.busWrite]
  rcases target_cases s.config.bufCap a with ⟨r, ha, ht⟩ | ⟨i, hi, ha, ht⟩ | ⟨hgap, ht⟩ <;> rw [ht]
  · exact readReg_writeReg_same (ha ▸ h)
  · obtain rfl := (ha ▸ h).width (storedWidth_sample hi)
    simpa using setWidth_ofNat 16 d
  · rcases h with h | ⟨h, -⟩
    · rw [storedWidth_gap hgap] at h; cases h
    · omega

/-- Settles O11: the address written reads back, and a WR leaves what every other address reads as. -/
theorem readBackAfterWrite : Obligations.ReadBackAfterWrite := by
  intro s a d n h
  refine ⟨s.busWrite a d, rfl, ?_, fun b hb => ⟨s.busRead b, rfl, ?_⟩⟩
  · rw [← busRead_busWrite_same h]; rfl
  · rw [← busRead_busWrite_ne s d hb]; rfl

/-! ### The sample NEXT_LEVEL reads (20_memory.md R42; 43_phase_cursor.md R133) -/

/-- Counting a sub-interval leaves the sample RAM and does not look at it. -/
theorem countSubInterval_samples (s : State) (m : SampleRam) (a : Nat) :
    { s with samples := m }.countSubInterval a = { s.countSubInterval a with samples := m } := by
  unfold State.countSubInterval
  split <;> rfl

/-- Settles O35: NEXT_LEVEL ends alike in each of its three cases, which S[OFFSET] alone tells apart. -/
theorem nextLevelReadsOnlyTheSampleUnderTheCursor : Obligations.NextLevelReadsOnlyTheSampleUnderTheCursor := by
  intro s m hsame
  have havail (hlt : s.offset.toNat < s.len.toNat) :
      { s with samples := m }.avail ({ s with samples := m }.stored s.offset.toNat) =
        s.avail (s.stored s.offset.toNat) :=
    congrArg s.avail (hsame hlt)
  rcases execNextLevel_cases s with ⟨hpast, hs⟩ | ⟨a, hlt, ha, hs⟩ | ⟨hlt, ha, hs⟩
  · exact ⟨_, hs, execNextLevel_past hpast⟩
  · refine ⟨_, hs, (execNextLevel_some (s := { s with samples := m }) hlt ((havail hlt).trans ha)).trans ?_⟩
    rw [countSubInterval_samples]; rfl
  · exact ⟨_, hs, execNextLevel_none hlt ((havail hlt).trans ha)⟩

end Sys2Proof.Machine

/-!
PROOFS. The encoding (30_encoding.md): the decoder on each kind of word, the bits it ignores, and the rows of the opcode
table it follows.
-/

namespace Sys2Proof

/-! ### The three kinds of word (R63) -/

/-- With `we` 0 the word is a RD. -/
theorem decode_rd {T : BusWord} (hwe : weBit T = false) : decode T = .rd (addrField T) := if_pos hwe

/-- With `we` 1 and the address of CMD the code names the operation (R64). -/
theorem decode_command {T : BusWord} (hwe : weBit T = true) (haddr : addrField T = 0) :
    decode T = decodeCommand (codeField T) := by
  rw [decode, if_neg (by simp [hwe]), if_pos haddr]

/-- With `we` 1 and another address the word is a WR. -/
theorem decode_wr {T : BusWord} (hwe : weBit T = true) (haddr : addrField T ≠ 0) :
    decode T = .wr (addrField T) (wdataField T) := by
  rw [decode, if_neg (by simp [hwe]), if_neg haddr]

/-- A WR of `d` to CMD decodes to the command the low byte of `d` names. -/
theorem decode_busWord_command (d : BusData) : decode (busWord true 0 d) = decodeCommand (d.setWidth 8) := by
  rw [decode_command (by simp) (by simp), codeField_busWord]

/-! ### Decoding an encoded operation -/

/-- Settles O2: the fields of the encoding put the decoder on the branch of the operation, the side conditions of R70
separating CMD_ILLEGAL from the commands and WR from both. -/
theorem decodeOfEncodeIsIdentity : Obligations.DecodeOfEncodeIsIdentity := by
  intro i hi
  cases i with
  | rd a => rw [encode, decode_rd (by simp), addrField_busWord]
  | reset => exact decode_busWord_command 0x01
  | matchDuration => exact decode_busWord_command 0x02
  | decodeGeneric => exact decode_busWord_command 0x03
  | nextLevel => exact decode_busWord_command 0x04
  | cmdIllegal c =>
    have hcode : c.toNat = 0 ∨ 5 ≤ c.toNat := of_decide_eq_true hi
    rw [encode, decode_busWord_command, BitVec.setWidth_setWidth_of_le _ (by decide), BitVec.setWidth_eq,
      decodeCommand_illegal hcode]
  | wr a d =>
    have haddr : a ≠ 0 := of_decide_eq_true hi
    rw [encode, decode_wr (by simp) (by simpa), addrField_busWord, wdataField_busWord]

/-! ### The bits the decoder ignores (R64, R69) -/

/-- The bits of `wdata` the decoder looks at, the others written as 0: none of a RD, the code of a command, all of a
WR. -/
def usedData (we : Bool) (addr : BusAddr) (d : BusData) : BusData :=
  if we = false then 0 else if addr = 0 then (d.setWidth 8).setWidth 32 else d

/-- Nothing of the `wdata` of a RD. -/
theorem usedData_rd (addr : BusAddr) (d : BusData) : usedData false addr d = 0 := rfl

/-- The code of a command. -/
theorem usedData_command (d : BusData) : usedData true 0 d = (d.setWidth 8).setWidth 32 := rfl

/-- All of the `wdata` of a WR. -/
theorem usedData_wr {addr : BusAddr} (haddr : addr ≠ 0) (d : BusData) : usedData true addr d = d := by
  rw [usedData, if_neg (by decide), if_neg haddr]

/-- `wdata` of two words agrees where the decoder looks at it. -/
theorem usedData_eq_iff (we : Bool) (addr : BusAddr) (d d' : BusData) :
    usedData we addr d = usedData we addr d' ↔
      (we = true → d.setWidth 8 = d'.setWidth 8 ∧ (addr ≠ 0 → d = d')) := by
  cases we with
  | false => simp [usedData_rd]
  | true =>
    by_cases haddr : addr = 0
    · have hlow : (d.setWidth 8).setWidth 32 = (d'.setWidth 8).setWidth 32 ↔ d.setWidth 8 = d'.setWidth 8 :=
        ⟨fun h => by simpa using congrArg (BitVec.setWidth 8) h, congrArg _⟩
      simpa only [haddr, usedData_command, ne_eq, not_true, false_implies, and_true, true_implies] using hlow
    · rw [usedData_wr haddr, usedData_wr haddr]
      exact ⟨fun h _ => ⟨congrArg _ h, fun _ => h⟩, fun h => (h rfl).2 haddr⟩

/-- Encoding what a command code names gives a WR of that code to CMD. -/
theorem encode_decodeCommand (c : BitVec 8) : encode (decodeCommand c) = busWord true 0 (c.setWidth 32) := by
  rcases decodeCommand_cases c with ⟨rfl, h⟩ | ⟨rfl, h⟩ | ⟨rfl, h⟩ | ⟨rfl, h⟩ | ⟨-, h⟩ <;> rw [h] <;> rfl

/-- Encoding a decoded word gives it back with the ignored bits 0. -/
theorem encode_decode (T : BusWord) :
    encode (decode T) = busWord (weBit T) (addrField T) (usedData (weBit T) (addrField T) (wdataField T)) := by
  cases hwe : weBit T with
  | false => rw [decode_rd hwe, usedData_rd, encode]
  | true =>
    by_cases haddr : addrField T = 0
    · rw [decode_command hwe haddr, encode_decodeCommand, codeField_eq, haddr, usedData_command]
    · rw [decode_wr hwe haddr, usedData_wr haddr, encode]

/-- The encoder tells decoded operations apart. -/
theorem decode_eq_iff_encode_eq (T U : BusWord) : decode T = decode U ↔ encode (decode T) = encode (decode U) := by
  refine ⟨congrArg encode, fun h => ?_⟩
  have roundTrip (V : BusWord) : decode (encode (decode V)) = decode V :=
    decodeOfEncodeIsIdentity _ (decode_wellFormed V)
  rw [← roundTrip T, h, roundTrip U]

/-- Settles O4: words decode alike when they are the same word once the ignored bits are 0. -/
theorem decodeIgnoresOnlyIgnoredBits : Obligations.DecodeIgnoresOnlyIgnoredBits := by
  intro T U
  rw [decode_eq_iff_encode_eq, encode_decode, encode_decode, busWord_inj, codeField_eq, codeField_eq]
  refine and_congr_right fun hwe => and_congr_right fun haddr => ?_
  rw [← hwe, ← haddr]
  exact usedData_eq_iff _ _ _ _

/-! ### The first row selected (R70) -/

/-- The head of a list is found first if it passes the test. -/
theorem find?_cons_eq_ite {α : Type} (p : α → Bool) (x : α) (xs : List α) :
    (x :: xs).find? p = if p x = true then some x else xs.find? p := by
  rw [List.find?_cons]
  cases p x <;> rfl

/-- The first row of the opcode table a word selects: the order of the rows is that of the decoder's tests. -/
theorem find?_opcodeTable (T : BusWord) :
    opcodeTable.find? (fun r => r.selects T) =
      if weBit T = false then some opcodeTable[0]
      else if addrField T = 0 then
        if codeField T = 0x01#8 then some opcodeTable[1]
        else if codeField T = 0x02#8 then some opcodeTable[2]
        else if codeField T = 0x03#8 then some opcodeTable[3]
        else if codeField T = 0x04#8 then some opcodeTable[4]
        else some opcodeTable[5]
      else some opcodeTable[6] := by
  simp only [opcodeTable, find?_cons_eq_ite, OpcodeRow.selects, selects_rd, selects_wr, selects_cmd,
    selects_code T 0x01 0x20000000001 rfl, selects_code T 0x02 0x20000000002 rfl,
    selects_code T 0x03 0x20000000003 rfl, selects_code T 0x04 0x20000000004 rfl,
    Bool.not_eq_true', Bool.and_eq_true, beq_iff_eq]
  cases hwe : weBit T with
  | false => rfl
  | true =>
    by_cases haddr : addrField T = 0
    · simp only [haddr, and_self, true_and]; rfl
    · simp only [haddr, and_false, false_and]; rfl

/-- Settles O3: decoder and table make the same tests in the same order. -/
theorem decodeTakesFirstMatchingRow : Obligations.DecodeTakesFirstMatchingRow := by
  intro T
  rw [find?_opcodeTable, decode, decodeCommand]
  split_ifs <;> exact ⟨_, rfl, rfl, rfl⟩

/-! ### Words printed in the spec -/

/-- Settles O1: each printed word, decoded. -/
theorem printedWordsDecode : Obligations.PrintedWordsDecode := by
  unfold Obligations.PrintedWordsDecode
  decide

end Sys2Proof

namespace Sys2Proof.Machine

/-- Settles O13: the code is kept by the decoder, and the error raised carries it. -/
theorem illegalCommandReported : Obligations.IllegalCommandReported := by
  intro T s hwe haddr hcode
  have herrval : (CommandError.illegalCommand (codeField T)).errval = BitVec.ofNat 16 (codeField T).toNat :=
    (BitVec.ofNat_toNat 16 (codeField T)).symm
  rw [decode_command hwe haddr, decodeCommand_illegal hcode, ← herrval]
  rfl

end Sys2Proof.Machine

/-!
PROOFS. The bus operations RD and WR and the RESET command (40_state_ops.md R80, R81, R83): what each address reads as,
and the whole effect of a write to it.
-/

namespace Sys2Proof.Machine

/-! ### What an address reads as (R80) -/

/-- A register address reads as its register. -/
theorem busRead_reg {s : State} {a : BusAddr} {r : Reg} (ha : a.toNat = regAddr r) : s.busRead a = s.readReg r := by
  rw [State.busRead, target_reg _ r ha]

/-- A sample address reads as its sample, zero-extended, whatever LEN is. -/
theorem busRead_sample {s : State} {a : BusAddr} {i : Nat} (ha : a.toNat = 0x100 + i) (hi : i < s.config.bufCap) :
    s.busRead a = (s.stored i).setWidth 32 := by
  rw [State.busRead, target_sample _ ha hi]

/-- An address that reaches nothing reads as 0 (20_memory.md R44). -/
theorem busRead_unmapped {s : State} {a : BusAddr} (ht : target s.config.bufCap a = .unmapped) : s.busRead a = 0 := by
  rw [State.busRead, ht]

/-- The register a register address reads as, as a number: zero-extension keeps it. -/
theorem toNat_busRead_reg {s : State} {a : BusAddr} {r : Reg} {w : Nat} {x : BitVec w} (ha : a.toNat = regAddr r)
    (hx : s.readReg r = x.setWidth 32) (hw : w ≤ 32) : (s.busRead a).toNat = x.toNat := by
  rw [busRead_reg ha, hx, BitVec.toNat_setWidth_of_le hw]

/-- CONFIG under the absolute policy (10_state.md R26). -/
theorem toNat_configWord_abs {b : Config.Build} (hb : b.policy = .abs) :
    (configWord b).toNat = b.bufCap * 2 ^ 17 + b.tolAbs.toNat := by
  simp [toNat_configWord, hb, policyBit, tolField]

/-- CONFIG under the percentage policy (10_state.md R26). -/
theorem toNat_configWord_pct {b : Config.Build} (hb : b.policy = .pct) :
    (configWord b).toNat = b.bufCap * 2 ^ 17 + 2 ^ 16 + b.tolPct.toNat := by
  have htol : (b.tolPct.setWidth 16).toNat = b.tolPct.toNat := BitVec.toNat_setWidth_of_le (by decide)
  rw [toNat_configWord, tolField, hb, htol]
  simp [policyBit]

/-- Settles O9: an address reaches a register, a sample or nothing, and reads as what it reaches. -/
theorem rdReturnsTheAddressedWord : Obligations.RdReturnsTheAddressedWord := by
  refine ⟨fun T => decode_rd, fun s a => ⟨s.busRead a, rfl, ?_⟩⟩
  exact ⟨fun ha => busRead_reg (r := .cmd) ha,
    fun ha => toNat_busRead_reg (r := .status) ha rfl (by decide),
    fun ha => toNat_busRead_reg (r := .ret) ha rfl (by decide),
    fun ha => toNat_busRead_reg (r := .errval) ha rfl (by decide),
    fun ha => toNat_busRead_reg (r := .protocolNum) ha rfl (by decide),
    fun ha => congrArg BitVec.toNat (busRead_reg (r := .value) ha),
    fun ha => toNat_busRead_reg (r := .address) ha rfl (by decide),
    fun ha => toNat_busRead_reg (r := .bits) ha rfl (by decide),
    fun ha => toNat_busRead_reg (r := .offset) ha rfl (by decide),
    fun ha => toNat_busRead_reg (r := .used) ha rfl (by decide),
    fun ha => toNat_busRead_reg (r := .ignoreHeader) ha rfl (by decide),
    fun ha => toNat_busRead_reg (r := .len) ha rfl (by decide),
    fun ha => busRead_unmapped (target_gap _ (.inl ha)),
    fun i ha => toNat_busRead_reg (r := .operand i) ha rfl (by decide),
    fun ha => busRead_unmapped (target_gap _ (.inr (.inl ha))),
    fun ha hp => (congrArg BitVec.toNat (busRead_reg (r := .config) ha)).trans (toNat_configWord_abs hp),
    fun ha hp => (congrArg BitVec.toNat (busRead_reg (r := .config) ha)).trans (toNat_configWord_pct hp),
    fun ha => busRead_unmapped (target_gap _ (.inr (.inr ha))),
    fun i hi ha => by rw [busRead_sample ha hi, BitVec.toNat_setWidth_of_le (by decide)],
    fun ha => busRead_unmapped (target_beyond _ ha)⟩

/-! ### What a WR stores (R81, R82) -/

/-- A WR to a register address writes its register. -/
theorem exec_wr_reg {s : State} {a : BusAddr} {d : BusData} {r : Reg} (ha : a.toNat = regAddr r) :
    exec (.wr a d) s = .next (s.writeReg d r) := by
  rw [exec, execWr, State.busWrite, target_reg _ r ha]

/-- A WR to a sample address writes its sample. -/
theorem exec_wr_sample {s : State} {a : BusAddr} {d : BusData} {i : Nat} (ha : a.toNat = 0x100 + i)
    (hi : i < s.config.bufCap) : exec (.wr a d) s = .next (s.memWrite i (d.setWidth 16)) := by
  rw [exec, execWr, State.busWrite, target_sample _ ha hi]

/-- A byte within BUF_CAP is stored in LEN. -/
theorem writeLen_within {s : State} {d : BusData} (h : d.toNat % 256 ≤ s.config.bufCap) :
    s.writeLen d = { s with len := d.setWidth 8 } :=
  if_pos (by simpa using h)

/-- A byte above BUF_CAP is not stored in LEN (R82). -/
theorem writeLen_above {s : State} {d : BusData} (h : s.config.bufCap < d.toNat % 256) : s.writeLen d = s :=
  if_neg (by simpa using h)

/-- A WR to a read-only or an unmapped address changes nothing. -/
theorem exec_wr_silent {s : State} {a : BusAddr} {d : BusData}
    (ha : (0x001 ≤ a.toNat ∧ a.toNat ≤ 0x003) ∨ (0x00C ≤ a.toNat ∧ a.toNat ≤ 0x00F) ∨
      (0x016 ≤ a.toNat ∧ a.toNat ≤ 0x0FF) ∨ 0x100 + s.config.bufCap ≤ a.toNat) :
    exec (.wr a d) s = .next s := by
  rw [exec, execWr, State.busWrite]
  rcases target_cases s.config.bufCap a with ⟨r, hr, ht⟩ | ⟨i, hi, hsample, -⟩ | ⟨-, ht⟩
  · rw [ht]
    cases r with
    | cmd | status | ret | errval | config => rfl
    | _ => simp only [regAddr] at hr; omega
  · omega
  · rw [ht]

/-- Settles O10: a WR writes the register or the sample its address names, LEN under its guard, or nothing. -/
theorem wrStoresTheLowBits : Obligations.WrStoresTheLowBits := by
  refine ⟨fun T => decode_wr, fun s a d => ?_⟩
  simp only [BitVec.ofNat_toNat]
  exact ⟨fun ha => exec_wr_reg (r := .protocolNum) ha,
    fun ha => exec_wr_reg (r := .value) ha,
    fun ha => exec_wr_reg (r := .address) ha,
    fun ha => exec_wr_reg (r := .bits) ha,
    fun ha => exec_wr_reg (r := .offset) ha,
    fun ha => exec_wr_reg (r := .used) ha,
    fun ha => exec_wr_reg (r := .ignoreHeader) ha,
    fun ha hd => (exec_wr_reg (r := .len) ha).trans (congrArg _ (writeLen_within hd)),
    fun ha hd => (exec_wr_reg (r := .len) ha).trans (congrArg _ (writeLen_above hd)),
    fun i ha => ⟨_, exec_wr_reg (r := .operand i) ha, fun j => s.operand_setOperand i j _, rfl⟩,
    fun i hi ha => ⟨_, exec_wr_sample ha hi, fun j => s.stored_memWrite i j _, rfl⟩,
    exec_wr_silent⟩

/-! ### RESET (R83) -/

/-- Settles O12: code 1 names RESET, whose two state operations, `clearResult` and `ok`, write what the statement
lists. -/
theorem resetClearsDecoderState : Obligations.ResetClearsDecoderState := by
  refine ⟨fun T hwe haddr hcode => ?_, fun s => rfl⟩
  rw [decode_command hwe haddr, hcode]
  rfl

end Sys2Proof.Machine

/-!
PROOFS. The Tolerance Matcher (41_tolerance_matcher.md): the laws of the predicate, from its window under each policy,
and the MATCH command.
-/

namespace Sys2Proof.Machine

/-! ### The window of PCT (R92) -/

/-- The lower end of the window of PCT: `e * (100 - TOL_PCT) / 100`, rounded up (R93). -/
def pctLow (b : Config.Build) (e : Nat) : ℤ := ⌈(e : ℚ) * (100 - b.tolPct.toNat) / 100⌉

/-- The upper end of the window of PCT: `e * (100 + TOL_PCT) / 100`, rounded down (R93). -/
def pctHigh (b : Config.Build) (e : Nat) : ℤ := ⌊(e : ℚ) * (100 + b.tolPct.toNat) / 100⌋

/-- An integer is at or above the lower end when 100 times it is at or above the unrounded end. -/
theorem pctLow_le_iff {b : Config.Build} {e : Nat} {z : ℤ} :
    pctLow b e ≤ z ↔ (e : ℤ) * 100 ≤ 100 * z + e * b.tolPct.toNat := by
  rw [pctLow, Int.ceil_le, div_le_iff₀ (by norm_num), mul_sub, sub_le_iff_le_add, mul_comm (z : ℚ)]
  exact_mod_cast Iff.rfl

/-- An integer is at or below the upper end when 100 times it is at or below the unrounded end. -/
theorem le_pctHigh_iff {b : Config.Build} {e : Nat} {z : ℤ} :
    z ≤ pctHigh b e ↔ 100 * z ≤ (e : ℤ) * 100 + e * b.tolPct.toNat := by
  rw [pctHigh, Int.le_floor, le_div_iff₀ (by norm_num), mul_add, mul_comm (z : ℚ)]
  exact_mod_cast Iff.rfl

/-- PCT accepts the integers from the lower end to the upper end. -/
theorem toleranceMatch_pct_iff_mem_Icc {b : Config.Build} (h : b.policy = .pct) (o e : Nat) :
    toleranceMatch b o e = true ↔ (o : ℤ) ∈ Set.Icc (pctLow b e) (pctHigh b e) := by
  rw [toleranceMatch_pct h, Set.mem_Icc, pctLow_le_iff, le_pctHigh_iff]
  exact_mod_cast Iff.rfl

/-- The expected value lies in the window, so that the window has both its ends. -/
theorem mem_Icc_pctLow_pctHigh (b : Config.Build) (e : Nat) : (e : ℤ) ∈ Set.Icc (pctLow b e) (pctHigh b e) := by
  rw [Set.mem_Icc, pctLow_le_iff, le_pctHigh_iff]
  have : (0 : ℤ) ≤ e * b.tolPct.toNat := by positivity
  omega

/-- When `e * TOL_PCT` is 100 times `k` the window reaches from `e - k` to `e + k`, nothing rounded. -/
theorem pctLow_pctHigh_of_exact {b : Config.Build} {e k : Nat} (hk : e * b.tolPct.toNat = 100 * k) :
    pctLow b e = e - k ∧ pctHigh b e = e + k := by
  have hkq : (e : ℚ) * b.tolPct.toNat = 100 * k := by exact_mod_cast hk
  have hlow : (e : ℚ) * (100 - b.tolPct.toNat) / 100 = ((e - k : ℤ) : ℚ) := by push_cast; linarith
  have hhigh : (e : ℚ) * (100 + b.tolPct.toNat) / 100 = ((e + k : ℤ) : ℚ) := by push_cast; linarith
  rw [pctLow, pctHigh, hlow, hhigh, Int.ceil_intCast, Int.floor_intCast]
  exact ⟨rfl, rfl⟩

/-! ### The laws of the predicate (R93) -/

/-- Law 1: a value matches itself. -/
theorem toleranceMatch_self (b : Config.Build) (e : Nat) : toleranceMatch b e e = true := by
  rcases policy_cases b with h | h
  · rw [toleranceMatch_abs h]; omega
  · rw [toleranceMatch_pct h]; omega

/-- Law 2: the boundaries of ABS, included, and one beyond them. -/
theorem toleranceMatch_abs_boundaries {b : Config.Build} (h : b.policy = .abs) (e : Nat) :
    toleranceMatch b (e + b.tolAbs.toNat) e = true ∧
    toleranceMatch b (e + b.tolAbs.toNat + 1) e = false ∧
    (b.tolAbs.toNat ≤ e → toleranceMatch b (e - b.tolAbs.toNat) e = true) ∧
    (b.tolAbs.toNat + 1 ≤ e → toleranceMatch b (e - b.tolAbs.toNat - 1) e = false) := by
  simp only [← Bool.not_eq_true, toleranceMatch_abs h]
  omega

/-- Law 3: the boundaries of PCT, included, and one beyond them. -/
theorem toleranceMatch_pct_boundaries {b : Config.Build} (h : b.policy = .pct) (o e : Nat) :
    ((o : ℤ) = pctLow b e → toleranceMatch b o e = true) ∧
    ((o : ℤ) = pctHigh b e → toleranceMatch b o e = true) ∧
    ((o : ℤ) = pctHigh b e + 1 → toleranceMatch b o e = false) ∧
    ((o : ℤ) = pctLow b e - 1 → toleranceMatch b o e = false) := by
  obtain ⟨hlow, hhigh⟩ := mem_Icc_pctLow_pctHigh b e
  simp only [← Bool.not_eq_true, toleranceMatch_pct_iff_mem_Icc h, Set.mem_Icc]
  omega

/-- Law 4: what lies between two accepted values is accepted. -/
theorem toleranceMatch_between {b : Config.Build} {e o p q : Nat} (hp : toleranceMatch b p e = true)
    (hq : toleranceMatch b q e = true) (hpo : p ≤ o) (hoq : o ≤ q) : toleranceMatch b o e = true := by
  rcases policy_cases b with h | h
  · rw [toleranceMatch_abs h] at *; omega
  · rw [toleranceMatch_pct h] at *; omega

/-- Law 5 under ABS: an expected 0 accepts what the tolerance covers. -/
theorem toleranceMatch_abs_zero {b : Config.Build} (h : b.policy = .abs) (o : Nat) :
    toleranceMatch b o 0 = true ↔ o ≤ b.tolAbs.toNat := by
  rw [toleranceMatch_abs h]; omega

/-- Law 5 under PCT: an expected 0 accepts 0 alone, a percentage of 0 being 0. -/
theorem toleranceMatch_pct_zero {b : Config.Build} (h : b.policy = .pct) (o : Nat) :
    toleranceMatch b o 0 = true ↔ o = 0 := by
  rw [toleranceMatch_pct h, zero_mul, zero_mul]; omega

/-- Law 6 under ABS: the window is symmetric. -/
theorem toleranceMatch_abs_comm {b : Config.Build} (h : b.policy = .abs) (o e : Nat) :
    toleranceMatch b o e = toleranceMatch b e o := by
  rw [Bool.eq_iff_iff, toleranceMatch_abs h, toleranceMatch_abs h, and_comm]

/-- Law 6 under PCT: with 25 percent, 75 matches 100, and 100 does not match 75. -/
theorem toleranceMatch_pct_not_comm :
    ∃ (b : Config.Build) (o e : Nat), b.policy = .pct ∧ toleranceMatch b o e ≠ toleranceMatch b e o :=
  ⟨⟨.pct, 0, 25, 0⟩, 75, 100, rfl, by decide⟩

/-- Law 7: with tolerance 0 the predicate is equality. -/
theorem toleranceMatch_exact {b : Config.Build} (o e : Nat)
    (h : b.policy = .abs ∧ b.tolAbs = 0 ∨ b.policy = .pct ∧ b.tolPct = 0) :
    toleranceMatch b o e = true ↔ o = e := by
  rcases h with ⟨hpolicy, htol⟩ | ⟨hpolicy, htol⟩
  · have hzero : b.tolAbs.toNat = 0 := congrArg BitVec.toNat htol
    rw [toleranceMatch_abs hpolicy, hzero]; omega
  · have hzero : b.tolPct.toNat = 0 := congrArg BitVec.toNat htol
    rw [toleranceMatch_pct hpolicy, hzero, mul_zero]; omega

/-- Settles O15: law by law; under PCT the predicate is membership in the window of `pctLow` and `pctHigh`. -/
theorem matcherLaws : Obligations.MatcherLaws := by
  refine ⟨toleranceMatch_self, fun b e h => toleranceMatch_abs_boundaries h e, ?_,
    fun b e o p q => toleranceMatch_between,
    fun b o => ⟨fun h => toleranceMatch_abs_zero h o, fun h => toleranceMatch_pct_zero h o⟩,
    ⟨fun b o e h => toleranceMatch_abs_comm h o e, toleranceMatch_pct_not_comm⟩,
    fun b o e => toleranceMatch_exact o e⟩
  rintro b e o _ _ h rfl rfl
  obtain ⟨atLow, atHigh, aboveHigh, belowLow⟩ := toleranceMatch_pct_boundaries h o e
  exact ⟨atLow, atHigh, aboveHigh, fun _ => belowLow,
    fun hdvd => pctLow_pctHigh_of_exact (Nat.mul_div_cancel' hdvd).symm⟩

/-! ### The MATCH command (R94) -/

/-- RET of a command that reports whether `p` holds. -/
theorem retOfBool_decide (p : Prop) [Decidable p] : retOfBool (decide p) = if p then 1 else 0 := by
  simp only [retOfBool, decide_eq_true_eq]

/-- MATCH reports the answer of the matcher on P0 and P1. -/
theorem exec_matchDuration (s : State) :
    exec .matchDuration s =
      .next (s.ok (retOfBool (toleranceMatch s.config (s.operand 0).toNat (s.operand 1).toNat))) := rfl

/-- Under ABS the matcher is `match_abs` (R90). -/
theorem toleranceMatch_eq_matchAbs {b : Config.Build} (h : b.policy = .abs) (o e : Nat) :
    toleranceMatch b o e = matchAbs b.tolAbs.toNat o e := by
  rw [toleranceMatch, h]

/-- Under PCT the matcher is `match_pct` (R90). -/
theorem toleranceMatch_eq_matchPct {b : Config.Build} (h : b.policy = .pct) (o e : Nat) :
    toleranceMatch b o e = matchPct b.tolPct.toNat o e := by
  rw [toleranceMatch, h]

/-- Settles O14: code 2 names MATCH, which reports the window of the policy built in. -/
theorem matchReportsTheWindow : Obligations.MatchReportsTheWindow := by
  refine ⟨fun T hwe haddr hcode => ?_, fun s => ⟨fun h => ?_, fun h => ?_⟩⟩
  · rw [decode_command hwe haddr, hcode]
    rfl
  · rw [exec_matchDuration, toleranceMatch_eq_matchAbs h, matchAbs, retOfBool_decide, State.ok]
  · rw [exec_matchDuration, toleranceMatch_eq_matchPct h, matchPct, retOfBool_decide, State.ok]

end Sys2Proof.Machine

/-!
PROOFS. DECODE_GENERIC (42_decode_generic.md): the error of each check, what a success delivers, and what the command
depends on.
-/

namespace Sys2Proof.Machine

/-! ### The errors of the header checks (R102, R103, R107) -/

/-- DECODE_GENERIC is its step 2 on the state step 1 cleared. -/
theorem exec_decodeGeneric (s : State) : exec .decodeGeneric s = .next s.clearResult.checkLength := rfl

/-- The length fails when `expectedLength` is not 0 and not LEN. -/
theorem not_lengthPasses_iff (s : State) :
    ¬ s.LengthPasses ↔ s.expectedLength ≠ 0 ∧ s.expectedLength.toNat ≠ s.len.toNat := not_or

/-- The command when the length fails. -/
theorem exec_decodeGeneric_rawCount {s : State} (h : ¬ s.LengthPasses) :
    exec .decodeGeneric s = .next (s.decodeFailed 1 0 s.offset) := by
  rw [exec_decodeGeneric, checkLength_fail (s := s.clearResult) h]
  rfl

/-- Settles O17: a length that fails ends the command with STATUS 1, and after one that passes it ends with another. -/
theorem rawCountErrorIffLengthDiffers : Obligations.RawCountErrorIffLengthDiffers := by
  intro s
  rw [← not_lengthPasses_iff]
  by_cases hlen : s.LengthPasses
  · obtain ⟨t, d, ht, hend⟩ := execDecodeGeneric_cases s
    have hstatus : t.status ≠ 1 := by
      rcases hend with ⟨hfails, -⟩ | ⟨-, -, -, rfl⟩ | ⟨-, -, rfl⟩ | ⟨k, -, -, -, -, rfl⟩ | ⟨k, -, -, -, -, -, rfl⟩ |
        ⟨-, -, rfl⟩
      · exact absurd hlen hfails
      all_goals simp [State.decodeFailed, State.decoded]
    exact ⟨t, ht, iff_of_false hstatus (not_not_intro hlen), fun h => absurd hlen h⟩
  · exact ⟨_, exec_decodeGeneric_rawCount hlen, iff_of_true rfl hlen, fun _ => rfl⟩

/-- Settles O18: steps 2 and 3 do not see what step 1 clears. -/
theorem headerMarkErrorReported : Obligations.HeaderMarkErrorReported := by
  intro s hlength hlen hchecked hmark hfits
  rw [exec_decodeGeneric, checkLength_pass (s := s.clearResult) hlength,
    checkHeaderMark_fail (s := s.clearResult) hlen hchecked hmark hfits]
  rfl

/-- Settles O19: steps 2 to 4 do not see what step 1 clears. -/
theorem headerSpaceErrorReported : Obligations.HeaderSpaceErrorReported := by
  intro s hlength hmark hlen hspace hfits
  rw [exec_decodeGeneric, checkLength_pass (s := s.clearResult) hlength,
    checkHeaderMark_pass (s := s.clearResult) hmark, checkHeaderSpace_fail (s := s.clearResult) hlen hspace hfits]
  rfl

/-! ### The errors of the data loop (R104, R105) -/

/-- Settles O20: past the header, the loop stops at the mark. -/
theorem dataMarkErrorReported : Obligations.DataMarkErrorReported := by
  intro s k hlength hmark hspace hk hpairs hfails
  refine (execDecodeGeneric_passes hlength hmark hspace).trans ?_
  rw [State.decodeData, decodeLoop_mark_fails s.clearResult k hk hpairs hfails]
  rfl

/-- Settles O21: past the header, the loop stops at the space. -/
theorem dataSpaceErrorReported : Obligations.DataSpaceErrorReported := by
  intro s k hlength hmark hspace hk hpairs hpasses hfails
  refine (execDecodeGeneric_passes hlength hmark hspace).trans ?_
  rw [State.decodeData, decodeLoop_space_fails s.clearResult k hk hpairs hpasses hfails]
  rfl

/-! ### What a success delivers (R106, R108, R109, R110) -/

/-- Settles O22: past the header, the loop takes every pair. -/
theorem successfulDecodeDeliversTheBits : Obligations.SuccessfulDecodeDeliversTheBits := by
  intro s hlength hmark hspace hpairs
  refine (execDecodeGeneric_passes hlength hmark hspace).trans ?_
  rw [decodeData_complete (s := s.clearResult) hpairs]
  rfl

/-- A number below 256 is what an 8-bit register holds of it. -/
theorem toNat_ofNat_eight {n : Nat} (h : n < 256) : (BitVec.ofNat 8 n).toNat = n := by
  rw [BitVec.toNat_ofNat, Nat.mod_eq_of_lt h]

/-- VALUE and ADDRESS together hold the low 48 bits of the number delivered (R109). -/
theorem State.decoded_low48 (s : State) (k v : Nat) :
    (s.decoded k v).address.toNat * 2 ^ 32 + (s.decoded k v).value.toNat = v % 2 ^ 48 := by
  simp only [State.decoded, BitVec.toNat_ofNat]
  omega

/-- The low k bits of a number received are its last k bits. -/
theorem bitsNumber_mod_two_pow (b : Nat → Bool) (n k : Nat) :
    bitsNumber b (n + k) % 2 ^ k = bitsNumber (fun j => b (n + j)) k := by
  rw [bitsNumber_add, Nat.mul_add_mod, Nat.mod_eq_of_lt (bitsNumber_lt _ _)]

/-- Settles O23: ADDRESS and VALUE are the low 48 bits of the number received, which are the last 48 bits. -/
theorem longFramesKeepTheLast48Bits : Obligations.LongFramesKeepTheLast48Bits := by
  intro s hlength hmark hspace hpairs hlong
  have hbits : (BitVec.ofNat 8 s.pairCount).toNat = s.pairCount := by
    have := pairCount_le s
    exact toNat_ofNat_eight (by omega)
  refine ⟨_, successfulDecodeDeliversTheBits s hlength hmark hspace hpairs, rfl, hbits, ?_⟩
  rw [State.decoded_low48, Nat.mod_mod_of_dvd _ (by decide), ← bitsNumber_mod_two_pow, Nat.sub_add_cancel hlong.le]

/-- The bits of a number, highest first, form it. -/
theorem bitsNumber_of_testBit {b : Nat → Bool} {N v : Nat} (hv : v < 2 ^ N)
    (hb : ∀ j < N, b j = v.testBit (N - 1 - j)) :
    bitsNumber b N = v := by
  induction N generalizing v with
  | zero => rw [Nat.lt_one_iff.1 hv]; rfl
  | succ N ih =>
    have hhigh : bitsNumber b N = v / 2 := ih (by omega) fun j hj => by
      rw [hb j (by omega), Nat.testBit_div_two]
      congr 1
      omega
    have hlow : bitsNumber (fun j => b (N + j)) 1 = v % 2 := by
      have hlast : b N = v.testBit 0 := by rw [hb N N.lt_succ_self, Nat.add_sub_cancel, Nat.sub_self]
      simp only [bitsNumber, Finset.sum_range_one, Nat.add_zero, hlast, Nat.toNat_testBit]
      omega
    rw [bitsNumber_add, hhigh, hlow]
    omega

/-- A frame whose header passes and whose pairs carry the bits of `v` decodes to `v` (R115). -/
theorem decode_frame {s : State} {N v : Nat} (hN : N ≤ 48) (hv : v < 2 ^ N) (hlen : s.len.toNat = 2 * N + 4)
    (hlength : s.expectedLength = 0 ∨ s.expectedLength.toNat = 2 * N + 4)
    (hmark : s.fits (s.stored 1) s.headMark = true) (hspace : s.fits (s.stored 2) s.headSpace = true)
    (hpairs : ∀ j < N, s.MarkPasses j ∧ s.SpacePasses j ∧ s.isOne j = v.testBit (N - 1 - j)) :
    exec .decodeGeneric s = .next (s.decoded N v) := by
  have hcount : s.pairCount = N := by unfold State.pairCount; omega
  have hpass : s.PairsPass N := fun j hj =>
    have ⟨hmarkData, hspaceData, _⟩ := hpairs j hj
    ⟨hmarkData, hspaceData⟩
  have hbits : ∀ j < N, s.isOne j = v.testBit (N - 1 - j) := fun j hj =>
    have ⟨_, _, hbit⟩ := hpairs j hj
    hbit
  have hnumber : bitsNumber s.isOne N % 2 ^ 64 = v := by
    have : (2 : Nat) ^ N ≤ 2 ^ 48 := Nat.pow_le_pow_right (by decide) hN
    rw [bitsNumber_of_testBit hv hbits, Nat.mod_eq_of_lt (by omega)]
  have hdecoded := successfulDecodeDeliversTheBits s (hlength.imp_right (·.trans hlen.symm))
    (.inr (.inr ⟨by omega, hmark⟩)) (.inr ⟨by omega, hspace⟩) (hcount.symm ▸ hpass)
  rwa [hcount, hnumber] at hdecoded

/-- Settles O27: a duration matches itself, so an exact buffer lies in the windows; and a buffer in the windows carries
the bits of `v`. -/
theorem decodeRoundTrip : Obligations.DecodeRoundTrip := by
  constructor
  · intro s N v hN hv hlen hlength hdistinct hmark hspace hpairs _
    have fitsSelf (d : Sample) : s.fits d d = true := toleranceMatch_self _ _
    refine decode_frame hN hv hlen hlength (hmark ▸ fitsSelf _) (hspace ▸ fitsSelf _) fun j hj => ?_
    obtain ⟨hmarkData, hspaceData⟩ := hpairs j hj
    rw [State.MarkPasses, State.SpacePasses, State.isOne, hmarkData, hspaceData]
    refine ⟨fitsSelf _, ?_⟩
    cases v.testBit (N - 1 - j) with
    | true => exact ⟨.inl (fitsSelf _), fitsSelf _⟩
    | false => exact ⟨.inr (fitsSelf _), hdistinct⟩
  · intro s N v hN hv hlen hlength hmark hspace hpairs
    refine decode_frame hN hv hlen hlength hmark hspace fun j hj => ?_
    obtain ⟨hmarkData, hspaceData⟩ := hpairs j hj
    refine ⟨hmarkData, ?_⟩
    split at hspaceData
    next hone => exact ⟨.inl hspaceData, hspaceData.trans hone.symm⟩
    next hzero =>
      obtain ⟨hfits, hnotOne⟩ := hspaceData
      exact ⟨.inr hfits, hnotOne.trans (Bool.eq_false_iff.2 hzero).symm⟩

/-! ### How the command ends on every state (R100, R112, R113) -/

/-- DECODE_GENERIC leaves the bus. -/
theorem exec_decodeGeneric_keeps_bus {s t : State} (h : exec .decodeGeneric s = .next t) :
    t.pending = s.pending ∧ t.busRdata = s.busRdata := by
  rcases execDecodeGeneric_next h with ⟨v, a, b, o, d, -, rfl⟩ | ⟨e, o, d, -, -, rfl⟩ <;> exact ⟨rfl, rfl⟩

/-- Settles O24: the six ends of the command, each with its registers written out. -/
theorem decodeOutcomeOnEveryState : Obligations.DecodeOutcomeOnEveryState := by
  intro s
  obtain ⟨t, d, ht, hend⟩ := execDecodeGeneric_cases s
  have kept : s.HostOwnedKept t := exec_keeps_hostOwned (i := .decodeGeneric) nofun ht
  have hused : t.used = s.used := exec_keeps_used (i := .decodeGeneric) ⟨nofun, nofun⟩ ht
  obtain ⟨hpending, hrdata⟩ := exec_decodeGeneric_keeps_bus ht
  have hcount := pairCount_le s
  refine ⟨t, ht, ?_⟩
  simp only [hused, kept.ignoreHeader, kept.len, kept.operands, kept.config, kept.samples, kept.resets, hpending,
    hrdata, and_true]
  clear ht kept hused hpending hrdata
  rcases hend with ⟨-, rfl⟩ | ⟨-, hchecked, hmark, rfl⟩ | ⟨-, hspace, rfl⟩ | ⟨k, -, hk, hpairs, hfails, rfl⟩ |
    ⟨k, -, hk, hpairs, hpasses, hfails, rfl⟩ | ⟨-, -, rfl⟩
  · simp [State.decodeFailed]
  · simpa [State.decodeFailed, hchecked] using hmark
  · simpa [State.decodeFailed] using hspace
  · have hstop : (BitVec.ofNat 8 (3 + 2 * k)).toNat = 3 + 2 * k := toNat_ofNat_eight (by omega)
    have hmark : ∃ j < s.pairCount, 3 + 2 * k = 3 + 2 * j ∧ s.PairsPass j ∧ ¬ s.MarkPasses j :=
      ⟨k, hk, rfl, hpairs, hfails⟩
    simpa [State.decodeFailed, hstop, -BitVec.toNat_ofNat] using hmark
  · have hstop : (BitVec.ofNat 8 (4 + 2 * k)).toNat = 4 + 2 * k := toNat_ofNat_eight (by omega)
    have hspace : ∃ j < s.pairCount, 4 + 2 * k = 4 + 2 * j ∧ s.PairsPass j ∧ s.MarkPasses j ∧ ¬ s.SpacePasses j :=
      ⟨k, hk, rfl, hpairs, hpasses, hfails⟩
    simpa [State.decodeFailed, hstop, -BitVec.toNat_ofNat] using hspace
  · have hstop : (BitVec.ofNat 8 (3 + 2 * s.pairCount)).toNat = 3 + 2 * s.pairCount := toNat_ofNat_eight (by omega)
    have hbits : (BitVec.ofNat 8 s.pairCount).toNat = s.pairCount := toNat_ofNat_eight (by omega)
    simp [State.decoded, hstop, hbits, -BitVec.toNat_ofNat]

/-- Settles O26: with no pair the loop ends at once, so that of the six ends of the command three are left. -/
theorem shortBuffersGiveNoBits : Obligations.ShortBuffersGiveNoBits := by
  intro s hlen hlength
  have hcount : s.pairCount = 0 := by unfold State.pairCount; omega
  have hpairs : s.PairsPass s.pairCount := by rw [hcount]; exact nofun
  have hnumber : bitsNumber s.isOne s.pairCount % 2 ^ 64 = 0 := by rw [hcount]; rfl
  refine ⟨fun hmark hspace => ?_, ?_⟩
  · have hdecoded := successfulDecodeDeliversTheBits s hlength hmark hspace hpairs
    rwa [hnumber, hcount] at hdecoded
  · obtain ⟨t, d, ht, hend⟩ := execDecodeGeneric_cases s
    refine ⟨t, ht, ?_⟩
    rw [hnumber, hcount] at hend
    rcases hend with ⟨hfails, -⟩ | ⟨-, hchecked, hmark, rfl⟩ | ⟨-, hspace, rfl⟩ | ⟨k, -, hk, -⟩ | ⟨k, -, hk, -⟩ |
      ⟨-, -, rfl⟩
    · exact absurd hlength hfails
    · exact .inr (.inl ⟨rfl, rfl, rfl, hchecked, hmark⟩)
    · exact .inr (.inr ⟨rfl, rfl, rfl, hspace⟩)
    · exact absurd hk (Nat.not_lt_zero k)
    · exact absurd hk (Nat.not_lt_zero k)
    · exact .inl ⟨rfl, rfl, rfl, rfl, rfl⟩

/-! ### What the command depends on (R101, R114) -/

/-- `t` looks like `s` to the checks of steps 2 to 4. -/
structure State.HeaderAlike (s t : State) : Prop where
  len          : t.len = s.len
  operands     : t.operands = s.operands
  config       : t.config = s.config
  ignoreHeader : t.ignoreHeader = s.ignoreHeader
  draws        : t.draws = s.draws
  mark         : t.stored 1 = s.stored 1
  space        : t.stored 2 = s.stored 2

/-- Looking alike goes on where a read has moved the count of draws. -/
theorem State.HeaderAlike.withDraws {s t : State} (h : s.HeaderAlike t) (d : Nat) :
    { s with draws := d }.HeaderAlike { t with draws := d } :=
  ⟨h.len, h.operands, h.config, h.ignoreHeader, rfl, h.mark, h.space⟩

/-- The operands of states that look alike. -/
theorem State.HeaderAlike.operand {s t : State} (h : s.HeaderAlike t) (i : Fin 6) : t.operand i = s.operand i := by
  rw [State.operand, h.operands, State.operand]

/-- The matcher on states that look alike. -/
theorem State.HeaderAlike.fits {s t : State} (h : s.HeaderAlike t) (o e : Sample) : t.fits o e = s.fits o e := by
  rw [State.fits, h.config, State.fits]

/-- States that look alike answer a command's read of the same sample alike. -/
theorem memRead_alike (s : State) {i : Nat} (hi : ∀ t, s.HeaderAlike t → t.stored i = s.stored i) :
    ∃ v d, ∀ t, s.HeaderAlike t → t.memRead i = (v, { t with draws := d }) := by
  by_cases hbelow : i < s.len.toNat
  · refine ⟨s.stored i, s.draws, fun t h => ?_⟩
    rw [State.memRead_below t (h.len ▸ hbelow), hi t h, ← h.draws]
  · refine ⟨Config.draw s.draws, s.draws + 1, fun t h => ?_⟩
    rw [State.memRead, if_neg (h.len ▸ hbelow), h.draws]

/-- A length that passes does so on every state that looks alike. -/
theorem State.HeaderAlike.lengthPasses {s t : State} (h : s.HeaderAlike t) : t.LengthPasses ↔ s.LengthPasses := by
  rw [State.LengthPasses, State.expectedLength, h.operand, h.len]
  rfl

/-- The errors of steps 2 to 4, which leave OFFSET (R112). -/
def CommandError.BeforeLoop (e : CommandError) : Prop := e.status = 1 ∨ e.status = 2 ∨ e.status = 3

/-- `run` ends alike on all states that look like `s`: with one count of draws it goes on to step 5 or raises one
error. -/
def State.EndsAlike (s : State) (run : State → State) : Prop :=
  ∃ d, (∀ t, s.HeaderAlike t → run t = { t with draws := d }.decodeData) ∨
    ∃ e, e.BeforeLoop ∧ ∀ t, s.HeaderAlike t → run t = { t with draws := d }.raise e

/-- A step that goes on to one that ends alike does so itself. -/
theorem State.EndsAlike.after {s : State} {run next : State → State} {d : Nat}
    (hnext : { s with draws := d }.EndsAlike next)
    (hrun : ∀ t, s.HeaderAlike t → run t = next { t with draws := d }) : s.EndsAlike run := by
  obtain ⟨d', hend⟩ := hnext
  refine ⟨d', ?_⟩
  rcases hend with hpasses | ⟨e, he, hfails⟩
  · exact .inl fun t h => (hrun t h).trans (hpasses _ (h.withDraws d))
  · exact .inr ⟨e, he, fun t h => (hrun t h).trans (hfails _ (h.withDraws d))⟩

/-- A step that goes on without a read to one that ends alike does so itself. -/
theorem State.EndsAlike.skip {s : State} {run next : State → State} (hnext : s.EndsAlike next)
    (hrun : ∀ t, s.HeaderAlike t → run t = next t) : s.EndsAlike run :=
  State.EndsAlike.after (d := s.draws) hnext fun t h => by rw [hrun t h, ← h.draws]

/-- Steps 5 to 8, to which the header checks go on. -/
theorem decodeData_alike (s : State) : s.EndsAlike State.decodeData :=
  ⟨s.draws, .inl fun t h => by rw [← h.draws]⟩

/-- Step 4 ends alike on states that look alike. -/
theorem checkHeaderSpace_alike (s : State) : s.EndsAlike State.checkHeaderSpace := by
  obtain ⟨v, d, hread⟩ := memRead_alike s (i := 2) fun t h => h.space
  have hstep (t : State) (h : s.HeaderAlike t) : t.checkHeaderSpace =
      if s.headSpace ≠ 0 then
        if s.fits v s.headSpace = true then { t with draws := d }.decodeData
        else { t with draws := d }.raise (.headerSpace s.headSpace)
      else t.decodeData := by
    rw [checkHeaderSpace_of_read (hread t h), h.fits, State.headSpace, h.operand]
    rfl
  by_cases hchecked : s.headSpace ≠ 0
  · simp only [if_pos hchecked] at hstep
    by_cases hfits : s.fits v s.headSpace = true
    · exact (decodeData_alike _).after fun t h => (hstep t h).trans (if_pos hfits)
    · exact ⟨d, .inr ⟨_, .inr (.inr rfl), fun t h => (hstep t h).trans (if_neg hfits)⟩⟩
  · exact (decodeData_alike s).skip fun t h => (hstep t h).trans (if_neg hchecked)

/-- Steps 3 and 4 end alike on states that look alike. -/
theorem checkHeaderMark_alike (s : State) : s.EndsAlike State.checkHeaderMark := by
  obtain ⟨v, d, hread⟩ := memRead_alike s (i := 1) fun t h => h.mark
  have hstep (t : State) (h : s.HeaderAlike t) : t.checkHeaderMark =
      if s.ignoreHeader = 0 ∧ s.headMark ≠ 0 then
        if s.fits v s.headMark = true then { t with draws := d }.checkHeaderSpace
        else { t with draws := d }.raise (.headerMark s.headMark)
      else t.checkHeaderSpace := by
    rw [checkHeaderMark_of_read (hread t h), h.fits, h.ignoreHeader, State.headMark, h.operand]
    rfl
  by_cases hchecked : s.ignoreHeader = 0 ∧ s.headMark ≠ 0
  · simp only [if_pos hchecked] at hstep
    by_cases hfits : s.fits v s.headMark = true
    · exact (checkHeaderSpace_alike _).after fun t h => (hstep t h).trans (if_pos hfits)
    · exact ⟨d, .inr ⟨_, .inr (.inl rfl), fun t h => (hstep t h).trans (if_neg hfits)⟩⟩
  · exact (checkHeaderSpace_alike s).skip fun t h => (hstep t h).trans (if_neg hchecked)

/-- Steps 2 to 4 end alike on states that look alike. -/
theorem checkLength_alike (s : State) : s.EndsAlike State.checkLength := by
  by_cases hlength : s.LengthPasses
  · exact (checkHeaderMark_alike s).skip fun t h => checkLength_pass (h.lengthPasses.2 hlength)
  · refine ⟨s.draws, .inr ⟨.rawCount, .inl rfl, fun t h => ?_⟩⟩
    rw [checkLength_fail (h.lengthPasses.not.2 hlength), ← h.draws]

/-- Every state looks like itself. -/
theorem State.headerAlike_refl (s : State) : s.HeaderAlike s := ⟨rfl, rfl, rfl, rfl, rfl, rfl, rfl⟩

/-- Ending the loop leaves the sample RAM and does not look at it. -/
theorem finishDecode_samples (s : State) (m : SampleRam) (r : LoopEnd) :
    { s with samples := m }.finishDecode r = { s.finishDecode r with samples := m } := by
  cases r <;> rfl

/-- Ending the loop does not look at OFFSET. -/
theorem finishDecode_offset (s : State) (o : BitVec 8) (r : LoopEnd) :
    { s with offset := o }.finishDecode r = s.finishDecode r := by
  cases r <;> rfl

/-- Steps 5 to 8 look at the samples of the pairs only. -/
theorem decodeData_samples {s : State} {m : SampleRam}
    (hsame : ∀ i, 3 ≤ i → i ≤ 2 + 2 * s.pairCount → { s with samples := m }.stored i = s.stored i) :
    { s with samples := m }.decodeData = { s.decodeData with samples := m } := by
  have hloop := decodeLoop_congr (s := { s with samples := m }) (t := s) rfl rfl rfl hsame s.len.toNat
  rw [State.decodeData, hloop, finishDecode_samples, State.decodeData]

/-- Steps 5 to 8 do not look at OFFSET, which step 5 sets (R111). -/
theorem decodeData_offset (s : State) (o : BitVec 8) : { s with offset := o }.decodeData = s.decodeData := by
  have hloop := decodeLoop_congr (s := { s with offset := o }) (t := s) rfl rfl rfl (fun _ _ _ => rfl) s.len.toNat
  rw [State.decodeData, hloop, finishDecode_offset, State.decodeData]

/-- Steps 5 to 8 end in no error of a step before. -/
theorem decodeData_status (s : State) :
    ¬ (s.decodeData.status = 1 ∨ s.decodeData.status = 2 ∨ s.decodeData.status = 3) := by
  rcases decodeData_cases s with ⟨-, h⟩ | ⟨k, -, -, -, h⟩ | ⟨k, -, -, -, -, h⟩ <;> simp [h]

/-- Steps 2 to 8 look at S[1], S[2] and the samples of the pairs only. -/
theorem checkLength_samples {s : State} {m : SampleRam}
    (hsame : ∀ i, 1 ≤ i → i ≤ 2 + 2 * s.pairCount → { s with samples := m }.stored i = s.stored i) :
    { s with samples := m }.checkLength = { s.checkLength with samples := m } := by
  have halike : s.HeaderAlike { s with samples := m } :=
    ⟨rfl, rfl, rfl, rfl, rfl, hsame 1 (by omega) (by omega), hsame 2 (by omega) (by omega)⟩
  obtain ⟨d, hpasses | ⟨e, -, hfails⟩⟩ := checkLength_alike s
  · rw [hpasses s s.headerAlike_refl]
    exact (hpasses _ halike).trans
      (decodeData_samples (s := { s with draws := d }) fun i h3 => hsame i (Nat.le_of_add_left_le h3))
  · rw [hfails s s.headerAlike_refl]
    exact hfails _ halike

/-- Steps 2 to 8 keep OFFSET in an error of steps 2 to 4, and else do not look at it. -/
theorem checkLength_offset (s : State) (o : BitVec 8) :
    { s with offset := o }.checkLength =
      if s.checkLength.status = 1 ∨ s.checkLength.status = 2 ∨ s.checkLength.status = 3 then
        { s.checkLength with offset := o }
      else s.checkLength := by
  have halike : s.HeaderAlike { s with offset := o } := ⟨rfl, rfl, rfl, rfl, rfl, rfl, rfl⟩
  obtain ⟨d, hpasses | ⟨e, he, hfails⟩⟩ := checkLength_alike s
  · rw [hpasses s s.headerAlike_refl, if_neg (decodeData_status _)]
    exact (hpasses _ halike).trans (decodeData_offset { s with draws := d } o)
  · rw [hfails s s.headerAlike_refl]
    exact (hfails _ halike).trans (if_pos he).symm

/-- Settles O28: the checks do not see what step 1 clears. -/
theorem decodeReadsNoOtherSample : Obligations.DecodeReadsNoOtherSample := fun s _ hsame =>
  ⟨_, rfl, congrArg Host.Outcome.next (checkLength_samples (s := s.clearResult) hsame)⟩

/-- Settles O29: step 1 clears all that was changed but OFFSET. -/
theorem decodeForgetsTheEarlierAttempt : Obligations.DecodeForgetsTheEarlierAttempt := fun s _ _ _ _ o =>
  ⟨_, rfl, congrArg Host.Outcome.next (checkLength_offset s.clearResult o)⟩

end Sys2Proof.Machine

/-!
PROOFS. NEXT_LEVEL (43_phase_cursor.md): how many unit intervals a sample counts as, how the command ends on every state,
and how often a sample is returned.
-/

namespace Sys2Proof.Machine

/-! ### How many unit intervals a sample counts as (R123, R124, R129) -/

/-- A width at most `t` that matches a multiple of `t` matches `t`: it is inside the upper bound for `t`, and the lower
bound for `t` is at most that for the multiple (R129). -/
theorem toleranceMatch_of_multiple {b : Config.Build} {w t k : Nat} (hw : w ≤ t) (hk : 1 ≤ k)
    (h : toleranceMatch b w (k * t) = true) : toleranceMatch b w t = true := by
  rcases policy_cases b with hb | hb
  · rw [toleranceMatch_abs hb] at h ⊢
    have := Nat.le_mul_of_pos_left t hk
    omega
  · rw [toleranceMatch_pct hb] at h ⊢
    refine ⟨?_, by omega⟩
    by_contra hlow
    have hscaled : k * (100 * w + t * b.tolPct.toNat) < k * (t * 100) := Nat.mul_lt_mul_of_pos_left (by omega) hk
    have := Nat.le_mul_of_pos_left (100 * w) hk
    linarith

/-- The first of 1, 2, 3 whose multiple of `t` a width matches is what it counts as (R123). -/
theorem classifyWidth_eq_some {b : Config.Build} {w t m : Nat} (h1 : 1 ≤ m) (h3 : m ≤ 3)
    (hm : toleranceMatch b w (m * t) = true) (hfirst : ∀ l, 1 ≤ l → l < m → toleranceMatch b w (l * t) = false) :
    classifyWidth b w t = some m := by
  have hone := hfirst 1 le_rfl
  have htwo := hfirst 2 (by decide)
  rw [one_mul] at hone
  obtain rfl | rfl | rfl : m = 1 ∨ m = 2 ∨ m = 3 := by omega
  · rw [one_mul] at hm
    simp [classifyWidth, hm]
  · simp [classifyWidth, hm, hone]
  · simp [classifyWidth, hm, hone, htwo]

/-- A width that matches none of `t`, 2`t`, 3`t` is not classified (R123). -/
theorem classifyWidth_eq_none {b : Config.Build} {w t : Nat}
    (h : ∀ m, 1 ≤ m → m ≤ 3 → toleranceMatch b w (m * t) = false) : classifyWidth b w t = none := by
  have hone := h 1 (by decide) (by decide)
  rw [one_mul] at hone
  simp [classifyWidth, hone, h 2, h 3]

/-- A width below `t` counts as 1 or is not classified (R129). -/
theorem classifyWidth_of_lt {b : Config.Build} {w t : Nat} (h : w < t) :
    classifyWidth b w t = some 1 ∨ classifyWidth b w t = none := by
  by_cases hone : toleranceMatch b w t = true
  · exact .inl (if_pos hone)
  · have hnone (m : Nat) (h1 : 1 ≤ m) (_ : m ≤ 3) : toleranceMatch b w (m * t) = false :=
      Bool.eq_false_iff.2 fun hm => hone (toleranceMatch_of_multiple h.le h1 hm)
    exact .inr (classifyWidth_eq_none hnone)

/-- The conditions of the clipped first mark (R124). -/
theorem clippedFirstMark_iff (s : State) (w : Sample) :
    s.clippedFirstMark w = true ↔ s.ignoreHeader = 1 ∧ s.offset = 1 ∧ w.toNat < s.t1.toNat := decide_eq_true_iff

/-- A classified sample counts as its class, clipped first mark or not (R123). -/
theorem avail_of_classified {s : State} {w : Sample} {m : Nat}
    (h : classifyWidth s.config w.toNat s.t1.toNat = some m) : s.avail w = some m := by
  rw [State.avail, h]

/-- A sample not classified counts as 1 when it is the clipped first mark, and else not at all (R124, R125). -/
theorem avail_of_unclassified {s : State} {w : Sample} (h : classifyWidth s.config w.toNat s.t1.toNat = none) :
    s.avail w = if s.clippedFirstMark w then some 1 else none := by
  rw [State.avail, h]

/-- The clipped first mark counts as 1, classified or not (R129). -/
theorem avail_of_clippedFirstMark {s : State} {w : Sample} (h : s.clippedFirstMark w = true) : s.avail w = some 1 := by
  obtain ⟨-, -, hlt⟩ := (clippedFirstMark_iff s w).1 h
  rcases classifyWidth_of_lt hlt with hone | hnone
  · exact avail_of_classified hone
  · rw [avail_of_unclassified hnone, if_pos h]

/-- Settles O16: 2`t` and 3`t` are multiples of `t`. -/
theorem clippedMarkOrderIsIrrelevant : Obligations.ClippedMarkOrderIsIrrelevant := by
  refine ⟨fun b w t hw h => ?_, fun _ _ => avail_of_clippedFirstMark⟩
  obtain ⟨k, hk, hm⟩ : ∃ k, 1 ≤ k ∧ toleranceMatch b w (k * t) = true :=
    h.elim (⟨2, by decide, ·⟩) (⟨3, by decide, ·⟩)
  exact toleranceMatch_of_multiple hw.le hk hm

/-! ### How the command ends (R121, R125, R126, R127) -/

/-- Settles O30: step 1 of the command. -/
theorem pastTheEndIsSpace : Obligations.PastTheEndIsSpace := fun _ => execNextLevel_past

/-- Settles O31: the sample under the cursor counts as no number of unit intervals. -/
theorem unclassifiableWidthIsPhaseError : Obligations.UnclassifiableWidthIsPhaseError := by
  intro s hlt hnone hclipped
  refine execNextLevel_none hlt ?_
  rw [avail_of_unclassified (classifyWidth_eq_none hnone), if_neg ((clippedFirstMark_iff s _).not.2 hclipped)]

/-- Adding 1 to the cursor, as a number. -/
theorem offset_add_one (o : BitVec 8) : o + 1 = BitVec.ofNat 8 (o.toNat + 1) := by
  rw [BitVec.ofNat_add, BitVec.ofNat_toNat, BitVec.setWidth_eq]
  rfl

/-- Below LEN the cursor goes up by 1 without wrapping (R126). -/
theorem toNat_offset_add_one {s : State} (h : s.offset.toNat < s.len.toNat) :
    (s.offset + 1).toNat = s.offset.toNat + 1 := by
  have := s.len.isLt
  rw [offset_add_one, toNat_ofNat_eight (by omega)]

/-- The whole effect on a sample that counts as `m` (R126, R127). -/
theorem exec_nextLevel_of_avail {s : State} {m : Nat} (hlt : s.offset.toNat < s.len.toNat)
    (hm : s.avail (s.stored s.offset.toNat) = some m) :
    exec .nextLevel s = .next { s with
      status := 0, errval := 0, ret := BitVec.ofNat 2 (s.offset.toNat % 2)
      used   := if m ≤ s.used.toNat + 1 then 0 else BitVec.ofNat 2 (s.used.toNat + 1)
      offset := if m ≤ s.used.toNat + 1 then BitVec.ofNat 8 (s.offset.toNat + 1) else s.offset } := by
  refine (execNextLevel_some hlt hm).trans ?_
  rw [levelOf_eq]
  rcases countSubInterval_cases s m with ⟨hmove, hcount⟩ | ⟨hstay, hcount⟩
  · simp only [hcount, offset_add_one, if_pos hmove, State.ok]
  · simp only [hcount, if_neg hstay.not_ge, State.ok]

/-- Settles O32: the sample under the cursor counts as `m`. -/
theorem levelReturnedAndCursorMoved : Obligations.LevelReturnedAndCursorMoved := by
  intro s m hlt hsample
  refine exec_nextLevel_of_avail hlt ?_
  rcases hsample with ⟨h1, h3, hm, hfirst⟩ | ⟨rfl, hignore, hoffset, hshort⟩
  · exact avail_of_classified (classifyWidth_eq_some h1 h3 hm hfirst)
  · refine avail_of_clippedFirstMark ((clippedFirstMark_iff s _).2 ⟨hignore, hoffset, ?_⟩)
    rw [hoffset]
    exact hshort

/-- How the command ends, on every state: nothing moved, with Space or the phase error; or, below LEN, the cursor moved
past a sample used up; or one more sub-interval of a sample counted. -/
theorem exec_nextLevel_cases (s : State) : ∃ t, exec .nextLevel s = .next t ∧
    ((t = s.ok 0 ∨ t = s.raise .phase) ∨
     (s.offset.toNat < s.len.toNat ∧ t = { s with used := 0, offset := s.offset + 1 }.ok (levelOf s.offset)) ∨
     ∃ a, s.offset.toNat < s.len.toNat ∧ s.avail (s.stored s.offset.toNat) = some a ∧ s.used.toNat + 1 < a ∧
       t = { s with used := BitVec.ofNat 2 (s.used.toNat + 1) }.ok (levelOf s.offset)) := by
  rcases execNextLevel_cases s with ⟨-, h⟩ | ⟨a, hlt, ha, h⟩ | ⟨-, -, h⟩
  · exact ⟨_, h, .inl (.inl rfl)⟩
  · refine ⟨_, h, .inr ?_⟩
    rcases countSubInterval_cases s a with ⟨-, hcount⟩ | ⟨hstay, hcount⟩ <;> rw [hcount]
    · exact .inl ⟨hlt, rfl⟩
    · exact .inr ⟨a, hlt, ha, hstay, rfl⟩
  · exact ⟨_, h, .inl (.inr rfl)⟩

/-- A number below the count of a sample is at most 2 and fits USED (R126). -/
theorem toNat_ofNat_of_lt_avail {s : State} {w : Sample} {a n : Nat} (ha : s.avail w = some a) (hn : n < a) :
    (BitVec.ofNat 2 n).toNat = n ∧ n ≤ 2 := by
  obtain ⟨-, h3⟩ := avail_range ha
  rw [BitVec.toNat_ofNat]
  omega

/-- Settles O33, from how the command ends. -/
theorem nextLevelOutcomeOnEveryState : Obligations.NextLevelOutcomeOnEveryState := by
  intro s
  obtain ⟨t, ht, hend⟩ := exec_nextLevel_cases s
  refine ⟨t, ht, ?_⟩
  have hlevel := levelOf_cases s.offset
  rcases hend with (rfl | rfl) | ⟨hlt, rfl⟩ | ⟨a, hlt, ha, hstay, rfl⟩
  · exact ⟨.inl ⟨rfl, .inl rfl⟩, rfl, fun _ => ⟨rfl, rfl⟩, .inl ⟨rfl, rfl⟩, rfl⟩
  · exact ⟨.inr ⟨rfl, rfl⟩, rfl, fun _ => ⟨rfl, rfl⟩, .inl ⟨rfl, rfl⟩, rfl⟩
  · exact ⟨.inl ⟨rfl, hlevel⟩, rfl, nofun, .inr ⟨hlt, .inl ⟨rfl, toNat_offset_add_one hlt⟩⟩, rfl⟩
  · obtain ⟨hused, htwo⟩ := toNat_ofNat_of_lt_avail ha hstay
    exact ⟨.inl ⟨rfl, hlevel⟩, rfl, nofun, .inr ⟨hlt, .inr ⟨hused, hused.trans_le htwo, rfl⟩⟩, rfl⟩

/-! ### How often a sample is returned (R128) -/

/-- The command keeps USED 0 or below the count of the sample under the cursor. -/
theorem exec_nextLevel_keeps_used_below_count {s : State}
    (h : s.used = 0 ∨ ∃ a, s.avail (s.stored s.offset.toNat) = some a ∧ s.used.toNat < a) :
    ∃ t, exec .nextLevel s = .next t ∧
      (t.used = 0 ∨ ∃ a, t.avail (t.stored t.offset.toNat) = some a ∧ t.used.toNat < a) := by
  obtain ⟨t, ht, hend⟩ := exec_nextLevel_cases s
  refine ⟨t, ht, ?_⟩
  rcases hend with (rfl | rfl) | ⟨-, rfl⟩ | ⟨a, -, ha, hstay, rfl⟩
  · exact h
  · exact h
  · exact .inl rfl
  · exact .inr ⟨a, ha, (toNat_ofNat_of_lt_avail ha hstay).1.trans_lt hstay⟩

/-- The `j`-th return of a sample that counts as `m`, `j - 1` sub-intervals of it having been counted: the cursor moves
on when `j` is `m`. -/
theorem exec_nextLevel_nth {s : State} {m j : Nat} (hlt : s.offset.toNat < s.len.toNat)
    (hm : s.avail (s.stored s.offset.toNat) = some m) (hj : s.used.toNat + 1 = j) (hjm : j ≤ m) :
    exec .nextLevel s = .next { s with
      status := 0, errval := 0, ret := BitVec.ofNat 2 (s.offset.toNat % 2)
      used   := if j = m then 0 else BitVec.ofNat 2 j
      offset := if j = m then BitVec.ofNat 8 (s.offset.toNat + 1) else s.offset } := by
  rw [exec_nextLevel_of_avail hlt hm, hj]
  simp only [← hjm.ge_iff_eq]

/-- One more command. -/
theorem repeated_succ {i : Instr} {n : Nat} {s t u : State} (ht : repeated i n s = some t) (hu : exec i t = .next u) :
    repeated i (n + 1) s = some u := by
  simp only [repeated, ht, hu]

/-- Settles O34, by induction on the number of commands. -/
theorem sampleReturnedOncePerUnitInterval : Obligations.SampleReturnedOncePerUnitInterval := by
  refine ⟨fun s => exec_nextLevel_keeps_used_below_count, ?_⟩
  intro s m hlt hused hm j h1
  induction j, h1 using Nat.le_induction with
  | base => exact fun hjm => repeated_succ rfl (exec_nextLevel_nth hlt hm (by rw [hused]; rfl) hjm)
  | succ j _ ih =>
    intro hjm
    have hprev := ih (Nat.le_of_succ_le hjm)
    simp only [if_neg (Nat.ne_of_lt hjm)] at hprev
    exact repeated_succ hprev
      (exec_nextLevel_nth hlt hm (congrArg (· + 1) (toNat_ofNat_of_lt_avail hm hjm).1) hjm)

end Sys2Proof.Machine

/-!
PROOFS. Errors (60_exceptions.md): IRPM waiting with nothing presented, and STATUS, RET and ERRVAL replaced by every
command.
-/

namespace Sys2Proof.Machine

/-! ### With nothing presented (R150) -/

/-- With nothing presented, a step takes nothing from the host. -/
theorem step_of_idle {s : State} (h : s.pending = []) : step s = .next (s.accept []) := by
  simp only [step, h]

/-- Settles O6: what is left to present is nothing, as it was. -/
theorem idleStepHoldsState : Obligations.IdleStepHoldsState := by
  intro s h
  rw [step_of_idle h, State.accept, ← h]

/-! ### The results of the command before (R147; 10_state.md R32) -/

section
variable (s : State) (c : BitVec 4) (r : BitVec 2) (e : BitVec 16)

/-- Ending the loop replaces the results. -/
theorem finishDecode_results (l : LoopEnd) :
    { s with status := c, ret := r, errval := e }.finishDecode l = s.finishDecode l := by
  cases l <;> rfl

/-- Steps 5 to 8 replace the results. -/
theorem decodeData_results : { s with status := c, ret := r, errval := e }.decodeData = s.decodeData := by
  have hloop := decodeLoop_congr (s := { s with status := c, ret := r, errval := e }) (t := s)
    rfl rfl rfl (fun _ _ _ => rfl) s.len.toNat
  rw [State.decodeData, hloop, finishDecode_results, State.decodeData]

/-- Steps 2 to 8 replace the results: they go on to step 5 or raise one error, whatever the results were. -/
theorem checkLength_results : { s with status := c, ret := r, errval := e }.checkLength = s.checkLength := by
  have halike : s.HeaderAlike { s with status := c, ret := r, errval := e } := ⟨rfl, rfl, rfl, rfl, rfl, rfl, rfl⟩
  obtain ⟨d, hpasses | ⟨err, -, hfails⟩⟩ := checkLength_alike s
  · rw [hpasses s s.headerAlike_refl]
    exact (hpasses _ halike).trans (decodeData_results { s with draws := d } c r e)
  · rw [hfails s s.headerAlike_refl]
    exact hfails _ halike

/-- Counting a sub-interval leaves the results and does not look at them. -/
theorem countSubInterval_results (a : Nat) :
    { s with status := c, ret := r, errval := e }.countSubInterval a =
      { s.countSubInterval a with status := c, ret := r, errval := e } := by
  unfold State.countSubInterval
  split <;> rfl

/-- NEXT_LEVEL replaces the results in each of its three cases, which they do not tell apart. -/
theorem execNextLevel_results :
    execNextLevel { s with status := c, ret := r, errval := e } = execNextLevel s := by
  rcases execNextLevel_cases s with ⟨hpast, hs⟩ | ⟨a, hlt, ha, hs⟩ | ⟨hlt, ha, hs⟩ <;> rw [hs]
  · exact execNextLevel_past hpast
  · rw [execNextLevel_some (s := { s with status := c, ret := r, errval := e }) hlt ha, countSubInterval_results]
    rfl
  · exact execNextLevel_none hlt ha

end

/-- A command replaces the results, so it leaves the same state whatever they were. -/
theorem exec_results {i : Instr} (hi : i.isCommand = true) (s : State) (c : BitVec 4) (r : BitVec 2) (e : BitVec 16) :
    exec i { s with status := c, ret := r, errval := e } = exec i s := by
  cases i with
  | rd a => cases hi
  | wr a d => cases hi
  | decodeGeneric => exact congrArg Host.Outcome.next (checkLength_results s.clearResult c r e)
  | nextLevel => exact execNextLevel_results s c r e
  | reset => rfl
  | matchDuration => rfl
  | cmdIllegal code => rfl

/-- Settles O39: the command completes, and the results it replaces make no difference. -/
theorem resultsAreNotSticky : Obligations.ResultsAreNotSticky := by
  intro i s c r e hi
  obtain ⟨t, ht⟩ := exec_completes i s
  exact ⟨t, ht, (exec_results hi s c r e).trans ht⟩

end Sys2Proof.Machine

/-!
PROOFS. Hardware reset (70_reset_and_hazards.md): the values it gives, and how little of the state before it is left.
-/

namespace Sys2Proof.Machine

/-! ### What hardware reset gives (R160, R161; 10_state.md R33) -/

/-- With `rst` presented, a step is the hardware reset. -/
theorem step_of_rst {s : State} {rest : List HostInput} (h : s.pending = .rst :: rest) :
    step s = .next (s.accept rest).hardwareReset := by
  simp only [step, h]

/-- Hardware reset clears each operand register. -/
@[simp] theorem State.hardwareReset_operand (s : State) (i : Fin 6) : s.hardwareReset.operand i = 0 := by
  fin_cases i <;> rfl

/-- Settles O7: the fields of the state hardware reset leaves, and a RAM with no word written. -/
theorem hardwareResetGivesTheResetValues : Obligations.HardwareResetGivesTheResetValues := fun s rest h =>
  ⟨(s.accept rest).hardwareReset, step_of_rst h, rfl, rfl, rfl, rfl, rfl, rfl, rfl, rfl, rfl, rfl, rfl,
    State.hardwareReset_operand _, rfl, fun _ => rfl, rfl⟩

/-! ### What a command before it leaves (R162) -/

/-- Hardware reset, the draws apart, looks at nothing but the build, what the host presents and the count of resets. -/
theorem State.hardwareReset_congr {s t : State} (hconfig : t.config = s.config) (hpending : t.pending = s.pending)
    (hresets : t.resets = s.resets) :
    { t.hardwareReset with draws := 0 } = { s.hardwareReset with draws := 0 } := by
  simp only [State.hardwareReset, hconfig, hpending, hresets]

/-- No command changes what the host presents. -/
theorem exec_command_pending {i : Instr} {s t : State} (hi : i.isCommand = true) (h : exec i s = .next t) :
    t.pending = s.pending := by
  cases i with
  | rd a => cases hi
  | wr a d => cases hi
  | decodeGeneric => exact (exec_decodeGeneric_keeps_bus h).1
  | nextLevel =>
    rcases execNextLevel_next h with ⟨u, r, -, rfl⟩ | ⟨r, -, -, rfl⟩ | rfl <;> rfl
  | reset | matchDuration | cmdIllegal => cases h; rfl

/-- Settles O43: a command keeps all that hardware reset looks at. -/
theorem abandonedCommandLeavesNoTrace : Obligations.AbandonedCommandLeavesNoTrace := by
  intro i s hi
  obtain ⟨t, ht⟩ := exec_completes i s
  have kept : s.HostOwnedKept t := exec_keeps_hostOwned (by rintro a d rfl; cases hi) ht
  exact ⟨t, ht, State.hardwareReset_congr kept.config (exec_command_pending hi ht) kept.resets⟩

end Sys2Proof.Machine
